-- ==== Sys2Proof/Word.lean ====
section
/-! DEFINITION. The word types of the core and nothing else (spec/00_scope.md R5, R6). -/

namespace Sys2Proof

/-- A memory cell, a general register or a timer: 8 bits, unsigned (R5, R21, R36). -/
abbrev Byte := BitVec 8

/-- The instruction word, `PC`, `I` and a stack entry: 16 bits, unsigned (R5, R26, R30, R32). -/
abbrev Word := BitVec 16

/-- One of the sixteen general registers. A selector is a 4-bit field, so it can never be out of range (R21). -/
abbrev Reg := Fin 16

/-- VF, the general register that is also the machine's only flag (R23). -/
def regF : Reg := 15

end Sys2Proof
end

