-- ==== Sys2Proof/Decode.lean ====
section
/-! DEFINITION. From bits to instructions and back: the fields of spec/30_encoding.md R91 and R92, the decoder of
R95, and the encoder written from the formats of R94 and the patterns of R96. -/

namespace Sys2Proof

/-- `fam = op[15:12]` (R91). -/
def famOf (op : Word) : BitVec 4 := op.extractLsb' 12 4
/-- `x = op[11:8]`, a register selector (R92). -/
def xOf (op : Word) : Reg := (op.extractLsb' 8 4).toFin
/-- `y = op[7:4]`, a register selector (R92). -/
def yOf (op : Word) : Reg := (op.extractLsb' 4 4).toFin
/-- `n = op[3:0]` (R92). -/
def nOf (op : Word) : BitVec 4 := op.extractLsb' 0 4
/-- `kk = op[7:0]` (R92). -/
def kkOf (op : Word) : Byte := op.extractLsb' 0 8
/-- `nnn = op[11:0]` (R92). -/
def nnnOf (op : Word) : BitVec 12 := op.extractLsb' 0 12

/-- Family 0: only the exact words 00E0 and 00EE are implemented (R95). -/
def decodeFamily0 (op : Word) : Instr :=
  if op = 0x00E0#16 then .cls else if op = 0x00EE#16 then .ret else .unimpl op

/-- Family 8: the low nibble selects the operation (R95). -/
def decodeFamily8 (op : Word) : Instr :=
  match (nOf op).toNat with
  | 0x0 => .ldReg (xOf op) (yOf op)
  | 0x1 => .orReg (xOf op) (yOf op)
  | 0x2 => .andReg (xOf op) (yOf op)
  | 0x3 => .xorReg (xOf op) (yOf op)
  | 0x4 => .addReg (xOf op) (yOf op)
  | 0x5 => .subReg (xOf op) (yOf op)
  | 0x6 => .shr (xOf op) (yOf op)
  | 0x7 => .subnReg (xOf op) (yOf op)
  | 0xE => .shl (xOf op) (yOf op)
  | _   => .unimpl op

/-- Family F: the low byte selects the operation (R95). -/
def decodeFamilyF (op : Word) : Instr :=
  match (kkOf op).toNat with
  | 0x07 => .ldVxDT (xOf op)
  | 0x15 => .ldDTVx (xOf op)
  | 0x18 => .ldSTVx (xOf op)
  | 0x1E => .addI (xOf op)
  | 0x33 => .ldB (xOf op)
  | 0x55 => .ldMemVx (xOf op)
  | 0x65 => .ldVxMem (xOf op)
  | _    => .unimpl op

/-- `Decode(op)`, a total function of the word alone (R95). -/
def decode (op : Word) : Instr :=
  match (famOf op).toNat with
  | 0x0 => decodeFamily0 op
  | 0x1 => .jp (nnnOf op)
  | 0x2 => .call (nnnOf op)
  | 0x3 => .seImm (xOf op) (kkOf op)
  | 0x4 => .sneImm (xOf op) (kkOf op)
  | 0x5 => if nOf op = 0 then .seReg (xOf op) (yOf op) else .unimpl op
  | 0x6 => .ldImm (xOf op) (kkOf op)
  | 0x7 => .addImm (xOf op) (kkOf op)
  | 0x8 => decodeFamily8 op
  | 0x9 => if nOf op = 0 then .sneReg (xOf op) (yOf op) else .unimpl op
  | 0xA => .ldI (nnnOf op)
  | 0xB => .jpV0 (nnnOf op)
  | 0xC => .unimpl op
  | 0xD => .drw (xOf op) (yOf op) (nOf op)
  | 0xE => .unimpl op
  | _   => decodeFamilyF op

/-- Two bytes as one word, the first the high byte (R63). -/
def wordOfBytes (hi lo : Byte) : Word := hi ++ lo

/-- The high byte of a word, which lies at the lower address (R63). -/
def hiByte (w : Word) : Byte := w.extractLsb' 8 8

/-- The low byte of a word, which lies at the higher address (R63). -/
def loByte (w : Word) : Byte := w.extractLsb' 0 8

/-- Why a byte string yields no instruction. No word is rejected (R98); only a string too short for one is. -/
inductive DecodeError where
  /-- fewer than the two bytes every instruction occupies (R90) -/
  | tooShort
  deriving DecidableEq, Repr

/-- The decoder over bytes: one instruction and the bytes after it. -/
def decodeBytes : List Byte → Except DecodeError (Instr × List Byte)
  | hi :: lo :: rest => .ok (decode (wordOfBytes hi lo), rest)
  | _                => .error .tooShort

/-- A register selector as its 4-bit field. -/
def regBits (r : Reg) : BitVec 4 := BitVec.ofFin r

/-- Format A: family nibble, 12-bit address (R94). -/
def wordA (fam : BitVec 4) (nnn : BitVec 12) : Word := fam ++ nnn
/-- Format XK: family nibble, register, byte (R94). -/
def wordXK (fam : BitVec 4) (x : Reg) (kk : Byte) : Word := fam ++ regBits x ++ kk
/-- Formats XY and XYN: family nibble, two registers, low nibble (R94). -/
def wordXY (fam : BitVec 4) (x y : Reg) (n : BitVec 4) : Word := fam ++ regBits x ++ regBits y ++ n
/-- Format X: family F, register, sub-operation byte (R94). -/
def wordX (x : Reg) (sub : Byte) : Word := 0xF#4 ++ regBits x ++ sub

/-- The word of an instruction, from the patterns of R96. -/
def encode : Instr → Word
  | .cls         => 0x00E0#16
  | .ret         => 0x00EE#16
  | .jp nnn      => wordA 0x1#4 nnn
  | .call nnn    => wordA 0x2#4 nnn
  | .seImm x kk  => wordXK 0x3#4 x kk
  | .sneImm x kk => wordXK 0x4#4 x kk
  | .seReg x y   => wordXY 0x5#4 x y 0x0#4
  | .ldImm x kk  => wordXK 0x6#4 x kk
  | .addImm x kk => wordXK 0x7#4 x kk
  | .ldReg x y   => wordXY 0x8#4 x y 0x0#4
  | .orReg x y   => wordXY 0x8#4 x y 0x1#4
  | .andReg x y  => wordXY 0x8#4 x y 0x2#4
  | .xorReg x y  => wordXY 0x8#4 x y 0x3#4
  | .addReg x y  => wordXY 0x8#4 x y 0x4#4
  | .subReg x y  => wordXY 0x8#4 x y 0x5#4
  | .shr x y     => wordXY 0x8#4 x y 0x6#4
  | .subnReg x y => wordXY 0x8#4 x y 0x7#4
  | .shl x y     => wordXY 0x8#4 x y 0xE#4
  | .sneReg x y  => wordXY 0x9#4 x y 0x0#4
  | .ldI nnn     => wordA 0xA#4 nnn
  | .jpV0 nnn    => wordA 0xB#4 nnn
  | .drw x y n   => wordXY 0xD#4 x y n
  | .ldVxDT x    => wordX x 0x07#8
  | .ldDTVx x    => wordX x 0x15#8
  | .ldSTVx x    => wordX x 0x18#8
  | .addI x      => wordX x 0x1E#8
  | .ldB x       => wordX x 0x33#8
  | .ldMemVx x   => wordX x 0x55#8
  | .ldVxMem x   => wordX x 0x65#8
  | .unimpl op   => op

/-- The bytes of an instruction in memory order, high byte first (R63, R90). -/
def encodeBytes (i : Instr) : List Byte := [hiByte (encode i), loByte (encode i)]

/-- The word whose low `nbits` bits are those of `w` and whose other bits are 0. -/
def tableWord (nbits w : Nat) : Word := BitVec.ofNat 16 (w % 2 ^ nbits)

/-- What the decoder reads from a word numbered as spec/opcode_table.json numbers it. Every instruction is one
16-bit word (R90), so a longer bit string is none. -/
def decodeTableWord (nbits w : Nat) : Option Instr :=
  if nbits ≤ 16 then
    match decodeBytes [hiByte (tableWord nbits w), loByte (tableWord nbits w)] with
    | .ok (i, _) => some i
    | .error _   => none
  else none

end Sys2Proof
end

