-- ==== Sys2Proof/Config.lean ====
section
/-! DEFINITION. The fixed sizes of the core and its parameters (spec/00_scope.md R5, spec/10_state.md R46).
The spec leaves no value of an instruction open, so there is no opaque constant here. -/

namespace Sys2Proof

/-- `MEM_SIZE`: addresses 0x000 to 0xFFF (R5, R36, R60). -/
def memSize : Nat := 4096

/-- `PROGRAM_BASE`: the load address of a program and the reset value of `PC`; fixed (R5, R72). -/
def programBase : Nat := 0x200

/-- `PROGRAM_BASE` as the value `PC` is reset to (R43, R241). -/
def resetPC : Word := 0x0200#16

/-- The parameters of the machine. No instruction depends on any of them (R5, R46; log
entry 13). -/
structure Config where
  /-- `FONT_BASE`: where the host loads the font. -/
  fontBase : Nat
  /-- `FONT_DATA`: the 80 bytes of the font. -/
  fontData : List Byte
  /-- `PHYS_W`: width of the physical pixel buffer. -/
  physW : Nat
  /-- `PHYS_H`: height of the physical pixel buffer. -/
  physH : Nat
  /-- `COLOR_BG`: the colour of an unlit cell, `0x00RRGGBB`. -/
  colorBg : BitVec 32
  /-- `COLOR_ON`: the colour of a lit cell, `0x00RRGGBB`. -/
  colorOn : BitVec 32
  /-- `CLOCK_IPS`: instructions per second. The spec gives it no default (OPEN, D17). -/
  clockIps : Nat
  deriving DecidableEq, Repr

/-- What R5 and R38 require of the parameters. A configuration that fails this is refused (spec/93 U22). -/
def Config.wf (c : Config) : Bool :=
  c.fontData.length == 80 &&
  decide (0 < c.physW) && c.physW % 64 == 0 && decide (0 < c.physH) && c.physH % 32 == 0 &&
  decide (c.colorBg.toNat < 2 ^ 24) && decide (c.colorOn.toNat < 2 ^ 24) && c.colorBg != c.colorOn &&
  decide (0 < c.clockIps)

/-- The 16 glyphs of 5 bytes that are the default of `FONT_DATA`, digits 0 to F in order (R71).
PRESUMED: the spec itself takes these bytes from general knowledge (spec/93 G2, D9). Log entry 11. -/
def defaultFont : List Byte :=
  [0xF0, 0x90, 0x90, 0x90, 0xF0,  0x20, 0x60, 0x20, 0x20, 0x70,
   0xF0, 0x10, 0xF0, 0x80, 0xF0,  0xF0, 0x10, 0xF0, 0x10, 0xF0,
   0x90, 0x90, 0xF0, 0x10, 0x10,  0xF0, 0x80, 0xF0, 0x10, 0xF0] ++
  [0xF0, 0x80, 0xF0, 0x90, 0xF0,  0xF0, 0x10, 0x20, 0x40, 0x40,
   0xF0, 0x90, 0xF0, 0x90, 0xF0,  0xF0, 0x90, 0xF0, 0x10, 0xF0] ++
  [0xF0, 0x90, 0xF0, 0x90, 0x90,  0xE0, 0x90, 0xE0, 0x90, 0xE0,
   0xF0, 0x80, 0x80, 0x80, 0xF0,  0xE0, 0x90, 0x90, 0x90, 0xE0] ++
  [0xF0, 0x80, 0xF0, 0x80, 0xF0,  0xF0, 0x80, 0xF0, 0x80, 0x80]

/-- The defaults of R5, for a given instruction rate (which has none). -/
def Config.default (clockIps : Nat) : Config :=
  { fontBase := 0x050, fontData := defaultFont, physW := 64, physH := 32,
    colorBg := 0x00000000#32, colorOn := 0x00FFFFFF#32, clockIps := clockIps }

/-- `SX`: physical pixels per logical cell, horizontally (R38). -/
def Config.scaleX (c : Config) : Nat := c.physW / 64

/-- `SY`: physical pixels per logical cell, vertically (R38). -/
def Config.scaleY (c : Config) : Nat := c.physH / 32

end Sys2Proof
end

