-- ==== Sys2Proof/Machine/State.lean ====
section
/-! DEFINITION. The whole architectural state (spec/10_state.md R20), its reset value (R43), and the reasons a
transaction can stop (spec/60_exceptions.md R201). -/

namespace Sys2Proof.Machine

/-- `MEM` as the list of the cells that do not hold 0, addresses strictly rising (R36, R60). The form is
`Memory.wf` of Machine/Ops.lean. -/
abbrev Memory := List Host.Cell

/-- `DISP`: 32 rows of 64 one-bit cells. Bit `X` of row `Y` is the cell `(X, Y)`, 1 for lit (R37; log entry 2). -/
abbrev Display := Vector (BitVec 64) 32

/-- `PHASE` (R39). -/
inductive Phase where
  /-- after reset: loads are accepted -/
  | load
  /-- from the first `Step` on -/
  | run
  /-- after a fault, until `Reset` -/
  | halted
  deriving DecidableEq, Repr

/-- `FAULT`: why the core halted (R40). -/
structure FaultRecord where
  /-- the cause code of R201; 0 means no fault -/
  code : BitVec 3
  /-- the instruction word being executed, 0x0000 where there is none -/
  op   : Word
  deriving DecidableEq, Repr

/-- The architectural state: exactly the tuple of R20. -/
structure State where
  /-- `MEM`, 4096 cells of 8 bits (R36) -/
  mem   : Memory
  /-- `V0` to `VF` (R21); `VF` is also the flag (R23) -/
  v     : Vector Byte 16
  /-- `I`, the index register (R30) -/
  i     : Word
  /-- `PC`, the program counter (R26) -/
  pc    : Word
  /-- `SP`: the index of the most recently pushed entry; `none` is the empty sentinel -1 (R31; log entry 1) -/
  sp    : Option (Fin 16)
  /-- `STACK`, 16 saved return addresses (R32) -/
  stack : Vector Word 16
  /-- `DT`, the delay timer (R34) -/
  dt    : Byte
  /-- `ST`, the sound timer (R35) -/
  st    : Byte
  /-- `DISP`, the logical display (R37) -/
  disp  : Display
  /-- `PHASE`, the lifecycle phase (R39) -/
  phase : Phase
  /-- `FAULT`, the fault record (R40) -/
  fault : FaultRecord
  deriving DecidableEq, Repr

/-- Every state element at the value R43 gives it (R240). -/
def State.reset : State :=
  { mem   := []
    v     := Vector.replicate 16 0
    i     := 0x0000#16
    pc    := resetPC
    sp    := none
    stack := Vector.replicate 16 0
    dt    := 0
    st    := 0
    disp  := Vector.replicate 32 0
    phase := .load
    fault := ⟨0, 0⟩ }

/-- The five fault causes (R201). -/
inductive FaultCause where
  | outOfBounds
  | invalidAddressFetch
  | invalidAddressData
  | stackOverflow
  | stackUnderflow
  deriving DecidableEq, Repr

/-- A transaction stopped in a fault. Each constructor carries the halted state, which holds `FAULT`, `PHASE` and
everything R209 says the halted core still holds; R208 has a model treat reaching it as a fault outcome and never
as a final state (log entry 3). Every one of them is safe: the machine stops where the spec says it halts. -/
inductive Fault where
  /-- Raised by `Load`, `LoadFont` and `LoadProgram` when the bytes would pass their limit (R206). Safe. -/
  | outOfBounds (halted : State)
  /-- Raised by the fetch of any `Step` when `PC + 1` is 4096 or more (R202). Safe. -/
  | invalidAddressFetch (halted : State)
  /-- Raised by DRW, LD B, LD [I] and LD Vx, [I] when the highest address they would touch is 4096 or more (R203).
  Safe. -/
  | invalidAddressData (halted : State)
  /-- Raised by CALL when 16 return addresses are already stacked (R204). Safe. -/
  | stackOverflow (halted : State)
  /-- Raised by RET when the stack is empty (R205). Safe. -/
  | stackUnderflow (halted : State)
  deriving DecidableEq, Repr

/-- Why an instruction has no meaning here. -/
inductive Refusal where
  /-- Answered only by an arm of `exec` whose instruction has no meaning yet; no arm is left in that state. Safe. -/
  | notModelled (mnemonic : String)
  deriving DecidableEq, Repr

end Sys2Proof.Machine
end

