-- ==== Sys2Proof/Machine/Ops.lean ====
section
/-! DEFINITION. The named operations over memory, registers, stack, display and program counter, and the one way a
fault is raised. -/

namespace Sys2Proof.Machine

/-! ## One update per state element (`<-` of spec/00_scope.md R7) -/

def State.setMem (s : State) (a : Memory) : State := { s with mem := a }
def State.setRegs (s : State) (a : Vector Byte 16) : State := { s with v := a }
def State.setI (s : State) (a : Word) : State := { s with i := a }
def State.setPC (s : State) (a : Word) : State := { s with pc := a }
def State.setSP (s : State) (a : Option (Fin 16)) : State := { s with sp := a }
def State.setStack (s : State) (a : Vector Word 16) : State := { s with stack := a }
def State.setDT (s : State) (a : Byte) : State := { s with dt := a }
def State.setST (s : State) (a : Byte) : State := { s with st := a }
def State.setDisp (s : State) (a : Display) : State := { s with disp := a }
def State.setPhase (s : State) (a : Phase) : State := { s with phase := a }
def State.setFault (s : State) (a : FaultRecord) : State := { s with fault := a }

/-! ## Memory (spec/20_memory.md R60 to R65) -/

/-- What an unlisted cell reads as: reset zeroes the memory (R43, "zeroed memory"; log entry 16). -/
def Memory.unlisted : Byte := 0

/-- `InRange(addr, n)`, `addr` unbounded: the last of the `n` bytes lies below 4096 (R61, R62). -/
def inRange (addr n : Nat) : Bool := decide (addr + n ≤ memSize)

/-- The canonical form from a least address on: rising addresses of the array, no cell that holds 0. -/
def Memory.wfFrom (lo : Nat) : Memory → Bool
  | []          => true
  | (a, b) :: m => decide (lo ≤ a) && decide (a < memSize) && b != Memory.unlisted && Memory.wfFrom (a + 1) m

/-- The canonical form of the memory list. -/
def Memory.wf (m : Memory) : Bool := m.wfFrom 0

/-- `MemRead(addr, 1)` (R61). -/
def Memory.read : Memory → Nat → Byte
  | [], _          => Memory.unlisted
  | (b, w) :: m, a => if a = b then w else if a < b then Memory.unlisted else Memory.read m a

/-- A cell at the front of a list, left out where it holds what an unlisted cell reads as. -/
def Memory.cons (a : Nat) (v : Byte) (m : Memory) : Memory := if v = Memory.unlisted then m else (a, v) :: m

/-- `MemWrite(addr, 1, v)` (R61), keeping the canonical form. -/
def Memory.write : Memory → Nat → Byte → Memory
  | [], a, v          => Memory.cons a v []
  | (b, w) :: m, a, v =>
    if a < b then Memory.cons a v ((b, w) :: m)
    else if a = b then Memory.cons a v m
    else (b, w) :: Memory.write m a v

/-- Bytes written at ascending addresses from `a` (R64). -/
def Memory.writeBytes (m : Memory) (a : Nat) : List Byte → Memory
  | []      => m
  | b :: bs => Memory.writeBytes (m.write a b) (a + 1) bs

/-- `MemRead(addr, 2)`: the byte at the lower address is the high byte (R61, R63). -/
def Memory.readWord (m : Memory) (a : Nat) : Word := wordOfBytes (m.read a) (m.read (a + 1))

/-! ## Registers -/

/-- `V[r]`. No register is hard-wired (R21). -/
def State.getV (s : State) (r : Reg) : Byte := s.v[r]

/-- `V[r] <- b` (R7). -/
def State.setV (s : State) (r : Reg) (b : Byte) : State := s.setRegs (s.v.set r b)

/-- `V[k]`, `V[k+1]`, … loaded from ascending addresses from `a`, for the selectors listed (R154). -/
def State.loadRegs (s : State) (a : Nat) : List Reg → State
  | []      => s
  | r :: rs => State.loadRegs (s.setV r (s.mem.read a)) (a + 1) rs

/-! ## Program counter (spec/40_control_flow.md R110 to R112) -/

/-- The fetch part of `Step`: the word at `PC`, or none where `PC` or `PC + 1` is 4096 or more (R111). -/
def State.fetch (s : State) : Option Word :=
  if inRange s.pc.toNat 2 then some (s.mem.readWord s.pc.toNat) else none

/-- The advance, and each further advance of a skip: `PC <- PC + 2`, modulo 2^16 for totality (R112, R29;
log entry 6). -/
def State.advance (s : State) : State := s.setPC (s.pc + 2)

/-- The first `Step` after reset begins the run; in `RUN` this changes nothing (R39, R110). -/
def State.beginRun (s : State) : State := s.setPhase .run

/-! ## Call stack (spec/10_state.md R31, R32) -/

/-- `SP` as the signed number the spec writes: -1 when the stack is empty (R31). -/
def State.spValue (s : State) : Int :=
  match s.sp with
  | none   => -1
  | some k => (k.val : Int)

/-- `SP` as the 5-bit two's-complement register of R31. -/
def State.spBits (s : State) : BitVec 5 := BitVec.ofInt 5 s.spValue

/-- `SP` plus 1 where it stays at most 15 (R31, R204). -/
def spPush : Option (Fin 16) → Option (Fin 16)
  | none   => some 0
  | some k => if h : k.val + 1 < 16 then some ⟨k.val + 1, h⟩ else none

/-- `SP` minus 1 from an entry `k`; below entry 0 lies the empty sentinel (R31). -/
def spPop (k : Fin 16) : Option (Fin 16) :=
  if k.val = 0 then none else some ⟨k.val - 1, by omega⟩

/-- `STACK[k] <- w` (R32). -/
def State.setEntry (s : State) (k : Fin 16) (w : Word) : State := s.setStack (s.stack.set k w)

/-! ## Display (spec/10_state.md R37, spec/43_display.md R165) -/

/-- `DISP[Y][X]` (R37). -/
def Display.lit (d : Display) (X : Fin 64) (Y : Fin 32) : Bool := d[Y].getLsbD X.val

/-- `DISP[Y][X] <- DISP[Y][X] xor 1` (R167). -/
def Display.toggle (d : Display) (X : Fin 64) (Y : Fin 32) : Display :=
  d.set Y (d[Y] ^^^ BitVec.twoPow 64 X.val)

/-- Every cell unlit (R166). -/
def Display.clear : Display := Vector.replicate 32 0

/-- Toggle the listed cells in order; the flag reports whether one of them was lit when its turn came (R167). -/
def Display.drawCells (d : Display) (hit : Bool) : List (Fin 64 × Fin 32) → Display × Bool
  | []           => (d, hit)
  | (X, Y) :: cs => Display.drawCells (d.toggle X Y) (hit || d.lit X Y) cs

/-! ## Raising a fault (spec/60_exceptions.md R201, R208, R209) -/

/-- `FAULT.code` of each cause (R201). -/
def FaultCause.code : FaultCause → BitVec 3
  | .outOfBounds         => 1
  | .invalidAddressFetch => 2
  | .invalidAddressData  => 3
  | .stackOverflow       => 4
  | .stackUnderflow      => 5

/-- The fault outcome of a cause, with the halted state it leaves. -/
def Fault.of : FaultCause → State → Fault
  | .outOfBounds, h         => .outOfBounds h
  | .invalidAddressFetch, h => .invalidAddressFetch h
  | .invalidAddressData, h  => .invalidAddressData h
  | .stackOverflow, h       => .stackOverflow h
  | .stackUnderflow, h      => .stackUnderflow h

/-- The halted state a fault outcome carries. -/
def Fault.halted : Fault → State
  | .outOfBounds h | .invalidAddressFetch h | .invalidAddressData h | .stackOverflow h | .stackUnderflow h => h

/-- The cause of a fault outcome. -/
def Fault.cause : Fault → FaultCause
  | .outOfBounds _         => .outOfBounds
  | .invalidAddressFetch _ => .invalidAddressFetch
  | .invalidAddressData _  => .invalidAddressData
  | .stackOverflow _       => .stackOverflow
  | .stackUnderflow _      => .stackUnderflow

/-- Fault entry: `FAULT` is written, `PHASE` becomes `HALTED`, and nothing else changes (R208, R209). -/
def State.enterFault (s : State) (c : FaultCause) (op : Word) : State :=
  (s.setFault ⟨c.code, op⟩).setPhase .halted

/-- `raise F` with the instruction word `op`, 0x0000 where there is none (R208). There is no trap return (R211):
only `Reset` leaves `HALTED`. -/
def raise (c : FaultCause) (op : Word) (s : State) : Host.Outcome State Fault Refusal :=
  .fault (Fault.of c (s.enterFault c op))

end Sys2Proof.Machine
end

