-- ==== Sys2Proof/Machine/Operands.lean ====
section
/-! DEFINITION. Operand forms: immediates, the one data addressing mode with its range check, register blocks,
decimal digits and sprite cells (spec/30_encoding.md R93, spec/42_index_memory.md R155, spec/43_display.md R168). -/

namespace Sys2Proof.Machine

/-- `zext_16(nnn)` (R93). -/
def zextAddr (nnn : BitVec 12) : Word := nnn.setWidth 16

/-- `zext_16(b)` of a register value (R93, R151). -/
def zextByte (b : Byte) : Word := b.setWidth 16

/-- `EA(0) = I` as an unbounded integer; byte `k` of an access lies at `ea + k` (R155, R62). -/
def State.ea (s : State) : Nat := s.i.toNat

/-- `CheckRange(count)` before the rest of an instruction: `InvalidAddress` unless all `count` bytes from `I` lie
below 4096, and then nothing of the instruction is done (R155, R203). `op` is the instruction's word
(log entry 17). -/
def guardRange (count : Nat) (op : Word) (s t : State) : Host.Outcome State Fault Refusal :=
  if inRange s.ea count then .next t else raise .invalidAddressData op s

/-- `V[0]` to `V[x]`, ascending (R153, R154). -/
def regsUpTo (x : Reg) : List Reg :=
  [0, 1, 2, 3, 4, 5, 6, 7, 8, 9, 10, 11, 12, 13, 14, 15].take (x.val + 1)

/-- Hundreds, tens and ones of an unsigned byte (R152). -/
def bcdDigits (b : Byte) : List Byte :=
  [BitVec.ofNat 8 (b.toNat / 100), BitVec.ofNat 8 (b.toNat / 10 % 10), BitVec.ofNat 8 (b.toNat % 10)]

/-- The cells toggled by row `r` of a sprite whose row byte is `b`, for the listed columns: column `c` is bit `7 - c`,
drawn at `((vx + c) mod 64, (vy + r) mod 32)` (R167, R168). -/
def rowCells (vx vy b : Byte) (r : Nat) (cols : List Nat) : List (Fin 64 × Fin 32) :=
  (cols.filter fun c => b.getLsbD (7 - c)).map fun c => (Fin.ofNat 64 (vx.toNat + c), Fin.ofNat 32 (vy.toNat + r))

/-- The cells an `n`-row sprite at `I` toggles, in the order R167 draws them. -/
def State.spriteCells (s : State) (vx vy : Byte) (n : Nat) : List (Fin 64 × Fin 32) :=
  (List.range n).flatMap fun r => rowCells vx vy (s.mem.read (s.ea + r)) r (List.range 8)

end Sys2Proof.Machine
end

