-- ==== Sys2Proof/Machine/Flags.lean ====
section
/-! DEFINITION. The values VF receives (spec/10_state.md R23, R24), each computed from operands sampled before any
write (spec/41_alu.md R131). -/

namespace Sys2Proof.Machine

/-- A flag write stores the byte 0x00 or 0x01 (R23). -/
def flagByte (b : Bool) : Byte := if b then 1 else 0

/-- Carry out of bit 7: 1 exactly when the sum is above 255 (R130, R138). -/
def carryFlag (a b : Byte) : Byte := flagByte (decide (a.toNat + b.toNat > 255))

/-- Strictly greater, unsigned: 0 when the operands are equal (R139, R141). -/
def greaterFlag (a b : Byte) : Byte := flagByte (decide (a.toNat > b.toNat))

/-- The bit a right shift by one moves out (R140). -/
def lowBitFlag (a : Byte) : Byte := flagByte (a.getLsbD 0)

/-- The bit a left shift by one moves out: bit 7 (R142). -/
def highBitFlag (a : Byte) : Byte := flagByte (a.getLsbD 7)

/-- `V[15] <- flag` (R24). -/
def State.setFlag (s : State) (b : Byte) : State := s.setV regF b

end Sys2Proof.Machine
end

