-- ==== Sys2Proof/Machine/Alu.lean ====
section
/-! DEFINITION. Register load, arithmetic, logic and shifts (spec/41_alu.md). Operands are sampled before any write,
and the writes are made in the order of the table of R131, so the later of two writes to VF stays. `PC` already holds
the advanced value. -/

namespace Sys2Proof.Machine

/-- `6xkk`: `V[x] <- kk` (R132). -/
def execLdImm (x : Reg) (kk : Byte) (s : State) : Host.Outcome State Fault Refusal :=
  .next (s.setV x kk)

/-- `7xkk`: `V[x] <- (vx + kk) mod 256`; no flag (R133). -/
def execAddImm (x : Reg) (kk : Byte) (s : State) : Host.Outcome State Fault Refusal :=
  .next (s.setV x (s.getV x + kk))

/-- `8xy0`: `V[x] <- vy` (R134). -/
def execLdReg (x y : Reg) (s : State) : Host.Outcome State Fault Refusal :=
  .next (s.setV x (s.getV y))

/-- `8xy1`: `V[x] <- vx | vy`; VF is not touched (R135). -/
def execOrReg (x y : Reg) (s : State) : Host.Outcome State Fault Refusal :=
  .next (s.setV x (s.getV x ||| s.getV y))

/-- `8xy2`: `V[x] <- vx & vy`; VF is not touched (R136). -/
def execAndReg (x y : Reg) (s : State) : Host.Outcome State Fault Refusal :=
  .next (s.setV x (s.getV x &&& s.getV y))

/-- `8xy3`: `V[x] <- vx ^ vy`; VF is not touched (R137). -/
def execXorReg (x y : Reg) (s : State) : Host.Outcome State Fault Refusal :=
  .next (s.setV x (s.getV x ^^^ s.getV y))

/-- `8xy4`: the sum first, the carry second (R138). -/
def execAddReg (x y : Reg) (s : State) : Host.Outcome State Fault Refusal :=
  .next ((s.setV x (s.getV x + s.getV y)).setFlag (carryFlag (s.getV x) (s.getV y)))

/-- `8xy5`: the flag `vx > vy` first, the difference `vx - vy` second (R139). -/
def execSubReg (x y : Reg) (s : State) : Host.Outcome State Fault Refusal :=
  .next ((s.setFlag (greaterFlag (s.getV x) (s.getV y))).setV x (s.getV x - s.getV y))

/-- `8xy6`: bit 0 to VF first, `vx >> 1` second; `y` is ignored (R140). -/
def execShr (x _y : Reg) (s : State) : Host.Outcome State Fault Refusal :=
  .next ((s.setFlag (lowBitFlag (s.getV x))).setV x (s.getV x >>> 1))

/-- `8xy7`: the flag `vy > vx` first, the difference `vy - vx` second (R141). -/
def execSubnReg (x y : Reg) (s : State) : Host.Outcome State Fault Refusal :=
  .next ((s.setFlag (greaterFlag (s.getV y) (s.getV x))).setV x (s.getV y - s.getV x))

/-- `8xyE`: bit 7 to VF first, `vx << 1` second; `y` is ignored (R142). -/
def execShl (x _y : Reg) (s : State) : Host.Outcome State Fault Refusal :=
  .next ((s.setFlag (highBitFlag (s.getV x))).setV x (s.getV x <<< 1))

end Sys2Proof.Machine
end

