-- ==== Sys2Proof/Machine/Control.lean ====
section
/-! DEFINITION. Control transfer (spec/40_control_flow.md). `PC` already holds the advanced value. -/

namespace Sys2Proof.Machine

/-- `00EE`: `StackUnderflow` on an empty stack, else `PC <- STACK[SP]` and `SP <- SP - 1`; the popped entry stays in
`STACK` (R113, R205). -/
def execRet (s : State) : Host.Outcome State Fault Refusal :=
  match s.sp with
  | none   => raise .stackUnderflow (encode .ret) s
  | some k => .next ((s.setPC s.stack[k]).setSP (spPop k))

/-- `1nnn`: `PC <- nnn`; the target is checked by the next fetch only (R114). -/
def execJp (nnn : BitVec 12) (s : State) : Host.Outcome State Fault Refusal :=
  .next (s.setPC (zextAddr nnn))

/-- `2nnn`: `StackOverflow` with 16 entries in use, else the advanced `PC` is pushed and `PC <- nnn` (R115, R204). -/
def execCall (nnn : BitVec 12) (s : State) : Host.Outcome State Fault Refusal :=
  match spPush s.sp with
  | none   => raise .stackOverflow (encode (.call nnn)) s
  | some k => .next (((s.setSP (some k)).setEntry k s.pc).setPC (zextAddr nnn))

/-- A further advance when the condition holds (R112, R116). -/
def skipIf (c : Bool) (s : State) : Host.Outcome State Fault Refusal :=
  .next (if c then s.advance else s)

/-- `3xkk`: skip when `vx = kk` (R116). -/
def execSeImm (x : Reg) (kk : Byte) (s : State) : Host.Outcome State Fault Refusal :=
  skipIf (s.getV x == kk) s

/-- `4xkk`: skip when `vx != kk` (R117). -/
def execSneImm (x : Reg) (kk : Byte) (s : State) : Host.Outcome State Fault Refusal :=
  skipIf (s.getV x != kk) s

/-- `5xy0`: skip when `vx = vy` (R118). -/
def execSeReg (x y : Reg) (s : State) : Host.Outcome State Fault Refusal :=
  skipIf (s.getV x == s.getV y) s

/-- `9xy0`: skip when `vx != vy` (R119). -/
def execSneReg (x y : Reg) (s : State) : Host.Outcome State Fault Refusal :=
  skipIf (s.getV x != s.getV y) s

/-- `Bnnn`: `PC <- nnn + V[0]`, a 16-bit sum that cannot overflow and is not reduced modulo 4096 (R120). -/
def execJpV0 (nnn : BitVec 12) (s : State) : Host.Outcome State Fault Refusal :=
  .next (s.setPC (zextAddr nnn + zextByte (s.getV 0)))

end Sys2Proof.Machine
end

