-- ==== Sys2Proof/Machine/Draw.lean ====
section
/-! DEFINITION. The two instructions that write the display (spec/43_display.md). -/

namespace Sys2Proof.Machine

/-- `00E0`: every cell to 0; VF is not written (R166). -/
def execCls (s : State) : Host.Outcome State Fault Refusal :=
  .next (s.setDisp Display.clear)

/-- The draw itself, once its range is known to be good: the set bits of the sprite are XORed into the display, and
VF is 1 if a cell went from lit to unlit, else 0 (R167). -/
def State.drawSprite (s : State) (vx vy : Byte) (n : Nat) : State :=
  (s.setDisp (s.disp.drawCells false (s.spriteCells vx vy n)).1).setFlag
    (flagByte (s.disp.drawCells false (s.spriteCells vx vy n)).2)

/-- `Dxyn`: with `n = 0` nothing is read, no range is checked, and VF becomes 0 (R167, R169). -/
def execDrw (x y : Reg) (n : BitVec 4) (s : State) : Host.Outcome State Fault Refusal :=
  if n = 0 then .next (s.drawSprite (s.getV x) (s.getV y) 0)
  else guardRange n.toNat (encode (.drw x y n)) s (s.drawSprite (s.getV x) (s.getV y) n.toNat)

end Sys2Proof.Machine
end

