-- ==== Sys2Proof/Machine/Index.lean ====
section
/-! DEFINITION. The index register and memory transfer (spec/42_index_memory.md). None of LD B, LD [I] and LD Vx, [I]
changes `I` (R155). -/

namespace Sys2Proof.Machine

/-- `Annn`: `I <- nnn` (R150). -/
def execLdI (nnn : BitVec 12) (s : State) : Host.Outcome State Fault Refusal :=
  .next (s.setI (zextAddr nnn))

/-- `Fx1E`: `I <- (I + vx) mod 65536`; no flag, no fault (R151). -/
def execAddI (x : Reg) (s : State) : Host.Outcome State Fault Refusal :=
  .next (s.setI (s.i + zextByte (s.getV x)))

/-- `Fx33`: hundreds, tens and ones at `I`, `I + 1`, `I + 2` (R152). -/
def execLdB (x : Reg) (s : State) : Host.Outcome State Fault Refusal :=
  guardRange 3 (encode (.ldB x)) s (s.setMem (s.mem.writeBytes s.ea (bcdDigits (s.getV x))))

/-- `Fx55`: `V[0]` to `V[x]` stored from `I` upward (R153). -/
def execLdMemVx (x : Reg) (s : State) : Host.Outcome State Fault Refusal :=
  guardRange (x.val + 1) (encode (.ldMemVx x)) s (s.setMem (s.mem.writeBytes s.ea ((regsUpTo x).map s.getV)))

/-- `Fx65`: `V[0]` to `V[x]` loaded from `I` upward (R154). -/
def execLdVxMem (x : Reg) (s : State) : Host.Outcome State Fault Refusal :=
  guardRange (x.val + 1) (encode (.ldVxMem x)) s (s.loadRegs s.ea (regsUpTo x))

end Sys2Proof.Machine
end

