-- ==== Sys2Proof/Machine/Timer.lean ====
section
/-! DEFINITION. The three timer instructions (spec/44_timer_instructions.md). The `Tick` that counts the timers down is
a transaction of its own, in Machine/Transactions.lean. -/

namespace Sys2Proof.Machine

/-- `Fx07`: `V[x] <- DT` (R180). -/
def execLdVxDT (x : Reg) (s : State) : Host.Outcome State Fault Refusal :=
  .next (s.setV x s.dt)

/-- `Fx15`: `DT <- vx` (R181). -/
def execLdDTVx (x : Reg) (s : State) : Host.Outcome State Fault Refusal :=
  .next (s.setDT (s.getV x))

/-- `Fx18`: `ST <- vx`; no sound (R182). -/
def execLdSTVx (x : Reg) (s : State) : Host.Outcome State Fault Refusal :=
  .next (s.setST (s.getV x))

end Sys2Proof.Machine
end

