-- ==== Sys2Proof/Machine/Unimplemented.lean ====
section
/-! DEFINITION. Unimplemented instruction words (spec/45_unimplemented.md), and the event a `Step` emits. -/

namespace Sys2Proof.Machine

/-- Every word outside the opcode table: no register, memory, display, stack or timer changes, and `PC` keeps the
advanced value (R190). The event that goes with it is `eventOf`, an output and no state (R41; log entry 5). -/
def execUnimpl (_op : Word) (s : State) : Host.Outcome State Fault Refusal :=
  .next s

/-- An event output of a `Step` (R41, R207). -/
inductive Event where
  /-- the step executed the unimplemented word `op` -/
  | unimpl (op : Word)
  deriving DecidableEq, Repr

/-- The event the execution of an instruction emits: `UNIMPL(op)` for an unimplemented word, none for every other
instruction (R41, R190). -/
def eventOf : Instr → Option Event
  | .unimpl op => some (.unimpl op)
  | .cls | .ret | .jp _ | .call _ | .seImm _ _ | .sneImm _ _ | .seReg _ _ | .ldImm _ _ | .addImm _ _
  | .ldReg _ _ | .orReg _ _ | .andReg _ _ | .xorReg _ _ | .addReg _ _ | .subReg _ _ | .shr _ _ | .subnReg _ _
  | .shl _ _ | .sneReg _ _ | .ldI _ | .jpV0 _ | .drw _ _ _ | .ldVxDT _ | .ldDTVx _ | .ldSTVx _ | .addI _
  | .ldB _ | .ldMemVx _ | .ldVxMem _ => none

end Sys2Proof.Machine
end

