-- ==== Sys2Proof/Machine/Step.lean ====
section
/-! DEFINITION. The `Step` transaction (spec/40_control_flow.md R110): fetch, advance, decode, execute. -/

namespace Sys2Proof.Machine

/-- One `Step`. In `HALTED` nothing changes (D28; log entry 4). A fetch outside memory raises `InvalidAddress` with
`PC` left as it is (R111). Else the instruction is executed with `PC` already advanced (R112). -/
def step (s : State) : Host.Outcome State Fault Refusal :=
  match s.phase with
  | .halted      => .next s
  | .load | .run =>
    match s.beginRun.fetch with
    | none    => raise .invalidAddressFetch 0 s.beginRun
    | some op => exec (decode op) s.beginRun.advance

/-- The same word stored where `step` fetches next. Where no word can be fetched at `PC` the program counter goes to
the entry point, and a halted core is started: both are what the fetch needs (log entry 10). -/
def State.withFetchWord (s : State) (nbits w : Nat) : State :=
  let s := if s.phase = .halted then (s.setPhase .run).setFault ⟨0, 0⟩ else s
  let s := if inRange s.pc.toNat 2 then s else s.setPC resetPC
  s.setMem (s.mem.writeBytes s.pc.toNat [hiByte (tableWord nbits w), loByte (tableWord nbits w)])

end Sys2Proof.Machine
end

