-- ==== Sys2Proof/Machine/Transactions.lean ====
section
/-! DEFINITION. The five transactions that drive the core (spec/10_state.md R44): `Reset`, `Load`, `Step`, `Tick` and
`Observe`, the boot sequence made of them (spec/70_reset_and_hazards.md R242), and runs under a schedule the host
chooses (spec/60_exceptions.md R217). -/

namespace Sys2Proof.Machine

/-! ## Tick (R215) -/

/-- A timer counts down to 0 and stays there (R34, R35, R215). -/
def countDown (b : Byte) : Byte := if b = 0 then 0 else b - 1

/-- `Tick`: both timers count down, independently; nothing in `HALTED` (R215, D16; log entry 7). -/
def tick (s : State) : State :=
  match s.phase with
  | .halted      => s
  | .load | .run => (s.setDT (countDown s.dt)).setST (countDown s.st)

/-! ## Load (spec/20_memory.md R70 to R72) -/

/-- `Load(bytes, offset, limit)`: refused without effect outside `LOAD` (log entry 14); `OutOfBounds`, with nothing
copied, where the bytes would pass the limit, or the end of memory for a limit beyond it (log entry 8); else the bytes
are copied (R70). -/
def load (bytes : List Byte) (offset limit : Nat) (s : State) : Host.Outcome State Fault Refusal :=
  match s.phase with
  | .run | .halted => .next s
  | .load =>
    if offset + bytes.length > min limit memSize then raise .outOfBounds 0 s
    else .next (s.setMem (s.mem.writeBytes offset bytes))

/-- `LoadFont(bytes) = Load(bytes, FONT_BASE, 0x200)` (R71). -/
def loadFont (c : Config) (bytes : List Byte) (s : State) : Host.Outcome State Fault Refusal :=
  load bytes c.fontBase programBase s

/-- `LoadProgram(bytes) = Load(bytes, 0x200, 4096)` (R72). -/
def loadProgram (bytes : List Byte) (s : State) : Host.Outcome State Fault Refusal :=
  load bytes programBase memSize s

/-! ## The event output of a step -/

/-- The event the next `Step` emits: that of the instruction it fetches; none in `HALTED` and none where the fetch
faults (R41, R110, R210). -/
def stepEvent (s : State) : Option Event :=
  match s.phase with
  | .halted      => none
  | .load | .run => s.fetch.bind fun op => eventOf (decode op)

/-! ## Observe (R37, R38, R44, R182, R201, R219, R245) -/

/-- What the host reads of the core. R44 and R245 give `Observe` the display, the phase and the fault record; R201 says
that in the halted state `PC` and `I` are readable too, and R182 and R219 that the host can observe `ST`; none of them
says by what transaction. DESIGN CHOICE: `PC` and `I` are part of an observation of a halted core (log entry 20), and
`ST` of an observation in every phase (log entry 21). -/
structure Observation where
  disp     : Display
  phase    : Phase
  fault    : FaultRecord
  /-- `ST`, which no instruction reads -/
  st       : Byte
  /-- `PC` and `I`, in `HALTED` only -/
  haltedAt : Option (Word × Word)
  deriving DecidableEq, Repr

/-- `Observe`: reads, and changes nothing. -/
def observe (s : State) : Observation :=
  ⟨s.disp, s.phase, s.fault, s.st, if s.phase = .halted then some (s.pc, s.i) else none⟩

/-- `PIX[k]`, row-major from the top left: the colour of the logical cell whose block holds the pixel (R38). -/
def pixelAt (c : Config) (d : Display) (k : Nat) : BitVec 32 :=
  if d.lit (Fin.ofNat 64 (k % c.physW / c.scaleX)) (Fin.ofNat 32 (k / c.physW / c.scaleY)) then c.colorOn
  else c.colorBg

/-- `PIX`, the physical pixel buffer: an output derived from `DISP`, no state (R38, R170). -/
def pixelBuffer (c : Config) (d : Display) : List (BitVec 32) :=
  (List.range (c.physW * c.physH)).map (pixelAt c d)

/-! ## Transactions and schedules -/

/-- A transaction the host presents (R44). Each is atomic (R67); the host makes no other move (R245; log entry 15). -/
inductive Transaction where
  | reset
  | load (bytes : List Byte) (offset limit : Nat)
  | step
  | tick
  | observe
  deriving DecidableEq, Repr

/-- The state a transaction leaves: the next state, or the halted state of its fault (R208). No instruction is
refused. -/
def stateAfter (s : State) : Host.Outcome State Fault Refusal → State
  | .next t    => t
  | .fault f   => f.halted
  | .refused _ => s

/-- The state a transaction leaves. -/
def State.after (s : State) : Transaction → State
  | .reset          => State.reset
  | .load bs off li => stateAfter s (Machine.load bs off li s)
  | .step           => stateAfter s (Machine.step s)
  | .tick           => Machine.tick s
  | .observe        => s

/-- The event a transaction emits: only a `Step` emits one (R41). -/
def State.emits (s : State) : Transaction → Option Event
  | .step                                  => stepEvent s
  | .reset | .load _ _ _ | .tick | .observe => none

/-- The state after a schedule of transactions: any interleaving the host chooses (R217). -/
def runSchedule (s : State) : List Transaction → State
  | []      => s
  | t :: ts => runSchedule (s.after t) ts

/-- The events a schedule emits, in order. -/
def eventsOf (s : State) : List Transaction → List Event
  | []      => []
  | t :: ts => (s.emits t).toList ++ eventsOf (s.after t) ts

/-- `Step` and `Tick` presented at the same instant: the `Step` first (R210, R217). -/
def stepAndTick : List Transaction := [.step, .tick]

/-- `m` periods of the paced schedule: one `Tick` after every `CLOCK_IPS / 60` steps (R218). It is one schedule among
those of R217. R218 defines it where `CLOCK_IPS` is a multiple of 60, and R216 and R260 give no more than the average
rate. DESIGN CHOICE: for every other `CLOCK_IPS` the quotient is rounded down, to 0 steps below 60 (log entry 19). -/
def pacedSchedule (c : Config) : Nat → List Transaction
  | 0     => []
  | m + 1 => List.replicate (c.clockIps / 60) .step ++ .tick :: pacedSchedule c m

/-- The boot sequence: `Reset`, `LoadFont(FONT_DATA)`, `LoadProgram(rom)` (R242). -/
def bootSequence (c : Config) (rom : List Byte) : List Transaction :=
  [.reset, .load c.fontData c.fontBase programBase, .load rom programBase memSize]

/-- The launch state of a run (R244). -/
def launchState (c : Config) (rom : List Byte) : State := runSchedule State.reset (bootSequence c rom)

end Sys2Proof.Machine
end

