-- ==== Sys2Proof/Machine/Pins.lean ====
section
/-! DEFINITION. The pin-level binding of the transactions (spec/10_state.md R45), which the spec calls its own choice
and on which no instruction depends. DESIGN CHOICE (log entry 9): a `Step` takes exactly one clock edge, which R260
allows, so `busy` is never 1. -/

namespace Sys2Proof.Machine

/-- The input pins at a rising edge of `clk` (R45). -/
structure PinsIn where
  rst      : Bool
  loadEn   : Bool
  loadAddr : BitVec 12
  loadData : Byte
  loadFail : Bool
  stepEn   : Bool
  tickEn   : Bool
  dispX    : BitVec 6
  dispY    : BitVec 5
  deriving DecidableEq, Repr

/-- The output pins after an edge (R45). `unimpl` is `unimpl_valid` with `unimpl_op`, which is valid only with it. -/
structure PinsOut where
  busy      : Bool
  halted    : Bool
  faultCode : BitVec 3
  faultOp   : Word
  unimpl    : Option Word
  dispLit   : Bool
  deriving DecidableEq, Repr

/-- The transactions an edge performs, in order, when `rst` is 0. A byte on the load port is a load of one byte,
`load_fail` a load that passes its limit; the `Tick` comes after the `Step` (R45, R217). -/
def pinTransactions (p : PinsIn) : List Transaction :=
  (if p.loadEn then [.load [p.loadData] p.loadAddr.toNat memSize] else []) ++
  (if p.loadFail then [.load [0] memSize memSize] else []) ++
  (if p.stepEn then [.step] else []) ++ (if p.tickEn then [.tick] else [])

/-- The edge has a result. Outside `LOAD` phase it always has one, for a load then does nothing (R45, R70). In `LOAD`
phase at most one of `load_en`, `load_fail` and `step_en` may be 1: the host never issues a transaction while another
is in progress (R245), and the spec gives no order among these three (log entry 9). -/
def PinsIn.legal (p : PinsIn) (s : State) : Bool :=
  p.rst || s.phase != .load || !((p.loadEn && p.loadFail) || (p.loadEn && p.stepEn) || (p.loadFail && p.stepEn))

/-- The word on `unimpl_op`, where an event was emitted. -/
def eventWord : Event → Word
  | .unimpl op => op

/-- One rising edge; none where the host makes a move it is assumed never to make. `rst` overrides every other input
(R45, R210). -/
def clockEdge (p : PinsIn) (s : State) : Option (State × PinsOut) :=
  if p.legal s then
    let ts := if p.rst then [.reset] else pinTransactions p
    let t := runSchedule s ts
    some (t, { busy      := false
               halted    := t.phase == .halted
               faultCode := t.fault.code
               faultOp   := t.fault.op
               unimpl    := (eventsOf s ts).head?.map eventWord
               dispLit   := t.disp.lit p.dispX.toFin p.dispY.toFin })
  else none

end Sys2Proof.Machine
end

