-- ==== Sys2Proof/Safety.lean ====
section
/-! DEFINITION. What claims call a safe state, a normal end of a run, and the invariant of the machine
(spec/10_state.md R29, R33, R40; spec/70_reset_and_hazards.md R246). -/

namespace Sys2Proof.Machine

/-- The core has not halted. A run that reaches `HALTED` has failed (R246). -/
def State.alive (s : State) : Prop := s.phase ≠ .halted

/-- The next instruction is `JP a` at its own address `a` (R246). -/
def State.spins (s : State) : Prop :=
  s.pc.toNat ≤ 0xFFE ∧ s.mem.readWord s.pc.toNat = wordA 0x1#4 (s.pc.extractLsb' 0 12)

/-- The run has ended normally (R246). -/
def State.ended (s : State) : Prop := s.phase = .run ∧ s.spins

/-- A schedule under which the core never halts. -/
def safeSchedule (s : State) : List Transaction → Prop
  | []      => s.alive
  | t :: ts => s.alive ∧ safeSchedule (s.after t) ts

/-- `STACK[k]` is in use: `k <= SP` (R31). -/
def State.inUse (s : State) (k : Fin 16) : Prop := ∃ top, s.sp = some top ∧ k.val ≤ top.val

/-- `FAULT` agrees with `PHASE`: code 0 and word 0x0000 until a fault, one of the codes 1 to 5 from then on
(R40, R201). -/
def State.faultAgrees (s : State) : Prop :=
  (s.phase ≠ .halted → s.fault = ⟨0, 0⟩) ∧ (s.phase = .halted → 1 ≤ s.fault.code.toNat ∧ s.fault.code.toNat ≤ 5)

/-- The invariant of every reachable state: the memory list is in its canonical form, `PC` is at most 0x10FE (R29),
every stack entry in use is an advanced `PC`, from 0x0002 to 0x1000 (R33), and `FAULT` agrees with `PHASE`. That
`-1 <= SP <= 15` holds by the type of `sp`. -/
structure State.Inv (s : State) : Prop where
  mem   : s.mem.wf = true
  pc    : s.pc.toNat ≤ 0x10FE
  stack : ∀ k, s.inUse k → 2 ≤ s.stack[k].toNat ∧ s.stack[k].toNat ≤ 0x1000
  fault : s.faultAgrees

end Sys2Proof.Machine
end

