-- ==== Sys2Proof/Certificates/Slice0/Obligations.lean ====
section
/-! DEFINITION. The statements for the provers: what the spec's numbered rules say of the model. Values are written
with `toNat` and the spec's own arithmetic, not with the model's operations. Log entry numbers are those of
notes/assumptions/. -/

namespace Sys2Proof.Claims

open Sys2Proof.Machine

/-- The elements of the state (R20). -/
inductive Part where
  | mem | v | i | pc | sp | stack | dt | st | disp | phase | fault
  deriving DecidableEq, Repr

/-- The element is the same in both states; memory and display are compared as they are read, byte by byte and cell by
cell. -/
def Same : Part → State → State → Prop
  | .mem, s, t   => ∀ a, t.mem.read a = s.mem.read a
  | .v, s, t     => ∀ r, t.getV r = s.getV r
  | .i, s, t     => t.i = s.i
  | .pc, s, t    => t.pc = s.pc
  | .sp, s, t    => t.sp = s.sp
  | .stack, s, t => ∀ k : Fin 16, t.stack[k] = s.stack[k]
  | .dt, s, t    => t.dt = s.dt
  | .st, s, t    => t.st = s.st
  | .disp, s, t  => ∀ X Y, t.disp.lit X Y = s.disp.lit X Y
  | .phase, s, t => t.phase = s.phase
  | .fault, s, t => t.fault = s.fault

/-- Every element of the state is unchanged but those listed. -/
def AllBut (ps : List Part) (s t : State) : Prop := ∀ p, p ∉ ps → Same p s t

/-- Every general register is unchanged but those listed. -/
def RegsBut (rs : List Reg) (s t : State) : Prop := ∀ r, r ∉ rs → t.getV r = s.getV r

/-- Nothing changes but the general registers listed. -/
def OnlyRegs (rs : List Reg) (s t : State) : Prop := AllBut [.v] s t ∧ RegsBut rs s t

/-- The word with the number `n` is the encoding of `i`, and decodes to it. -/
def Encodes (i : Instr) (n : Nat) : Prop := n < 65536 ∧ (encode i).toNat = n ∧ decode (BitVec.ofNat 16 n) = i

/-- The number of a condition used as a flag. -/
def flagNat (b : Bool) : Nat := if b then 1 else 0

/-- The mnemonic, in the spelling of spec/opcode_table.json, of each constructor (R96). -/
def mnemonic : Instr → String
  | .cls => "CLS" | .ret => "RET" | .jp _ => "JP_nnn" | .call _ => "CALL_nnn"
  | .seImm _ _ => "SE_Vx__kk" | .sneImm _ _ => "SNE_Vx__kk" | .seReg _ _ => "SE_Vx__Vy" | .ldImm _ _ => "LD_Vx__kk"
  | .addImm _ _ => "ADD_Vx__kk" | .ldReg _ _ => "LD_Vx__Vy" | .orReg _ _ => "OR_Vx__Vy" | .andReg _ _ => "AND_Vx__Vy"
  | .xorReg _ _ => "XOR_Vx__Vy" | .addReg _ _ => "ADD_Vx__Vy" | .subReg _ _ => "SUB_Vx__Vy" | .shr _ _ => "SHR_Vx"
  | .subnReg _ _ => "SUBN_Vx__Vy" | .shl _ _ => "SHL_Vx" | .sneReg _ _ => "SNE_Vx__Vy" | .ldI _ => "LD_I__nnn"
  | .jpV0 _ => "JP_V0__nnn" | .drw _ _ _ => "DRW_Vx__Vy__n" | .ldVxDT _ => "LD_Vx__DT" | .ldDTVx _ => "LD_DT__Vx"
  | .ldSTVx _ => "LD_ST__Vx" | .addI _ => "ADD_I__Vx" | .ldB _ => "LD_B__Vx" | .ldMemVx _ => "LD__I___Vx"
  | .ldVxMem _ => "LD_Vx___I" | .unimpl _ => "UNIMPL"

/-- The registers an instruction writes (R22, third column). -/
def writesReg : Instr → Reg → Prop
  | .ldImm x _, r | .addImm x _, r | .ldReg x _, r | .orReg x _, r | .andReg x _, r | .xorReg x _, r
  | .ldVxDT x, r => r = x
  | .addReg x _, r | .subReg x _, r | .subnReg x _, r | .shr x _, r | .shl x _, r => r = x ∨ r = 15
  | .drw _ _ _, r => r = 15
  | .ldVxMem x, r => r.val ≤ x.val
  | .cls, _ | .ret, _ | .jp _, _ | .call _, _ | .seImm _ _, _ | .sneImm _ _, _ | .seReg _ _, _ | .sneReg _ _, _
  | .ldI _, _ | .jpV0 _, _ | .ldDTVx _, _ | .ldSTVx _, _ | .addI _, _ | .ldB _, _ | .ldMemVx _, _
  | .unimpl _, _ => False

/-- The registers an instruction reads (R22, second column). -/
def readsReg : Instr → Reg → Prop
  | .seImm x _, r | .sneImm x _, r | .addImm x _, r | .shr x _, r | .shl x _, r | .ldDTVx x, r | .ldSTVx x, r
  | .addI x, r | .ldB x, r => r = x
  | .ldReg _ y, r => r = y
  | .seReg x y, r | .sneReg x y, r | .orReg x y, r | .andReg x y, r | .xorReg x y, r | .addReg x y, r
  | .subReg x y, r | .subnReg x y, r | .drw x y _, r => r = x ∨ r = y
  | .jpV0 _, r => r = 0
  | .ldMemVx x, r => r.val ≤ x.val
  | .cls, _ | .ret, _ | .jp _, _ | .call _, _ | .ldImm _ _, _ | .ldI _, _ | .ldVxDT _, _ | .ldVxMem _, _
  | .unimpl _, _ => False

/-- The elements of the state an instruction may write in its execute part (R22, R27, R30, R31, R32, R34, R35, R37,
R66). -/
def writesPart : Instr → List Part
  | .cls => [.disp]
  | .ret => [.pc, .sp]
  | .call _ => [.pc, .sp, .stack]
  | .jp _ | .jpV0 _ | .seImm _ _ | .sneImm _ _ | .seReg _ _ | .sneReg _ _ => [.pc]
  | .ldImm _ _ | .addImm _ _ | .ldReg _ _ | .orReg _ _ | .andReg _ _ | .xorReg _ _ | .addReg _ _ | .subReg _ _
  | .shr _ _ | .subnReg _ _ | .shl _ _ | .ldVxDT _ | .ldVxMem _ => [.v]
  | .drw _ _ _ => [.v, .disp]
  | .ldI _ | .addI _ => [.i]
  | .ldDTVx _ => [.dt]
  | .ldSTVx _ => [.st]
  | .ldB _ | .ldMemVx _ => [.mem]
  | .unimpl _ => []

/-- The fault an instruction raises in a state, by the conditions of R201: the highest address a data access would
touch, and `SP` on entry. -/
def faultOf : Instr → State → Option FaultCause
  | .ret, s => if s.spValue = -1 then some .stackUnderflow else none
  | .call _, s => if s.spValue = 15 then some .stackOverflow else none
  | .drw _ _ n, s => if 1 ≤ n.toNat ∧ s.i.toNat + n.toNat - 1 ≥ 4096 then some .invalidAddressData else none
  | .ldB _, s => if s.i.toNat + 2 ≥ 4096 then some .invalidAddressData else none
  | .ldMemVx x, s | .ldVxMem x, s => if s.i.toNat + x.val ≥ 4096 then some .invalidAddressData else none
  | _, _ => none

/-- The column `c` of row `r` of the sprite at `I` has a set bit, and lands on the cell `(X, Y)` for the position
`(vx, vy)` (R167, R168). -/
def SpriteDot (s : State) (vx vy : Byte) (r c : Nat) (X : Fin 64) (Y : Fin 32) : Prop :=
  c < 8 ∧ (s.mem.read (s.i.toNat + r)).getLsbD (7 - c) = true ∧
    X.val = (vx.toNat + c) % 64 ∧ Y.val = (vy.toNat + r) % 32

/-- An `n`-row sprite at `I`, drawn at `(vx, vy)`, toggles the cell `(X, Y)`. -/
def Toggles (s : State) (vx vy : Byte) (n : Nat) (X : Fin 64) (Y : Fin 32) : Prop :=
  ∃ r < n, ∃ c, SpriteDot s vx vy r c X Y

/-- The digits LD B stores, most significant first (R152). -/
def decimalDigit (b : Byte) : Nat → Nat
  | 0 => b.toNat / 100
  | 1 => b.toNat / 10 % 10
  | _ => b.toNat % 10

/-- The value the execute part of an instruction stores in the byte at an address, where it stores there: the two
instructions that store are LD B and LD [I], Vx (R64, R66). -/
def storedByte : Instr → State → Nat → Option Nat
  | .ldB x, s, a =>
    if s.i.toNat ≤ a ∧ a ≤ s.i.toNat + 2 then some (decimalDigit (s.getV x) (a - s.i.toNat)) else none
  | .ldMemVx x, s, a =>
    if s.i.toNat ≤ a ∧ a ≤ s.i.toNat + x.val then some (s.getV (Fin.ofNat 16 (a - s.i.toNat))).toNat else none
  | _, _, _ => none

/-- The state after a `Step` where one is presented. -/
def stepped (presented : Bool) (s : State) : State := if presented then stateAfter s (step s) else s

/-- The state after a `Tick` where one is presented. -/
def ticked (presented : Bool) (s : State) : State := if presented then tick s else s

end Sys2Proof.Claims

open Sys2Proof Sys2Proof.Machine Sys2Proof.Claims

/-! ## Reset and the invariant -/

/-- The reset table (R43, R240). The rows of STACK, DISP, PHASE and FAULT are the spec's own decisions (D24, D14, D18,
D3; log entry 12). -/
def Obligations.ResetLeavesResetTable : Prop :=
  (∀ a, State.reset.mem.read a = 0) ∧ (∀ r, State.reset.getV r = 0) ∧ State.reset.i = 0 ∧
  State.reset.pc.toNat = 0x200 ∧ State.reset.spValue = -1 ∧ (∀ k : Fin 16, State.reset.stack[k] = 0) ∧
  State.reset.dt = 0 ∧ State.reset.st = 0 ∧ (∀ X Y, State.reset.disp.lit X Y = false) ∧
  State.reset.phase = .load ∧ State.reset.fault = ⟨0, 0⟩ ∧ ∀ s : State, s.after .reset = State.reset

/-- The invariant of Safety.lean holds after reset. -/
def Obligations.ResetStateIsInsideInvariant : Prop := State.reset.Inv

/-- Every step that answers a next state keeps the invariant (R29, R33, R40). -/
def Obligations.StepKeepsMachineInvariant : Prop := ∀ s t : State, s.Inv → step s = .next t → t.Inv

/-- A fault of a step leaves a halted state that is inside the invariant (R208). -/
def Obligations.FaultHaltsInsideInvariant : Prop :=
  ∀ (s : State) (f : Fault), s.Inv → step s = .fault f → f.halted.phase = .halted ∧ f.halted.Inv

/-- Every transaction of the host, with whatever outcome, keeps the invariant (R44, R212). -/
def Obligations.EveryTransactionKeepsInvariant : Prop :=
  ∀ (s : State) (t : Transaction), s.Inv → (s.after t).Inv

/-- In every state reached from reset under any schedule, `PC` is at most 0x10FE, `SP` is from -1 to 15, the entries
of `STACK` in use are advanced program counters from 0x0002 to 0x1000, and `FAULT` holds a code exactly when the core
has halted (R29, R33, R40). A corollary of EveryTransactionKeepsInvariant, which is the step lemma behind it. -/
def Obligations.ReachableStatesStayInBounds : Prop :=
  ∀ ts : List Transaction, ∀ s, s = runSchedule State.reset ts →
    s.pc.toNat ≤ 0x10FE ∧ -1 ≤ s.spValue ∧ s.spValue ≤ 15 ∧
    (∀ k : Fin 16, (k.val : Int) ≤ s.spValue → 2 ≤ s.stack[k].toNat ∧ s.stack[k].toNat ≤ 0x1000) ∧
    (s.phase = .halted ↔ s.fault.code ≠ 0) ∧ s.fault.code.toNat ≤ 5

/-! ## Encoding -/

/-- Decoding an encoded well-formed instruction gives it back, at every value of every operand. -/
def Obligations.DecodeAfterEncodeIsIdentity : Prop := ∀ i : Instr, i.wf = true → decode (encode i) = i

/-- Every 16-bit word decodes to a well-formed instruction whose encoding is that word: no bit of a word is lost. -/
def Obligations.EncodeAfterDecodeIsIdentity : Prop := ∀ op : Word, (decode op).wf = true ∧ encode (decode op) = op

/-- The decoder, written family by family (R95), agrees with the masks and values of the opcode table (R96), and
reports a word as unimplemented exactly where no row claims it (R97). -/
def Obligations.DecoderAgreesWithOpcodeTable : Prop :=
  ∀ op : Word, (∀ row ∈ opcodeTable, op &&& row.mask = row.value → mnemonic (decode op) = row.mnemonic) ∧
    ((∀ row ∈ opcodeTable, op &&& row.mask ≠ row.value) ↔ decode op = .unimpl op)

/-- No word is claimed by two rows of the opcode table (R95). -/
def Obligations.OpcodePatternsArePairwiseDisjoint : Prop :=
  ∀ op : Word, ∀ p ∈ opcodeTable, ∀ q ∈ opcodeTable,
    op &&& p.mask = p.value → op &&& q.mask = q.value → p = q

/-- A few words written out from the patterns of R96. -/
def Obligations.WrittenOutWordsDecode : Prop :=
  decode 0x00E0#16 = .cls ∧ decode 0x00EE#16 = .ret ∧ decode 0x1ABC#16 = .jp 0xABC ∧ decode 0x2ABC#16 = .call 0xABC ∧
  decode 0x3A42#16 = .seImm 10 0x42 ∧ decode 0x9AB0#16 = .sneReg 10 11 ∧ decode 0x8127#16 = .subnReg 1 2 ∧
  decode 0xB3FF#16 = .jpV0 0x3FF ∧ decode 0xD01F#16 = .drw 0 1 15 ∧ decode 0xF255#16 = .ldMemVx 2 ∧
  decode 0xF265#16 = .ldVxMem 2 ∧ decode 0x5AB1#16 = .unimpl 0x5AB1 ∧ decode 0xF029#16 = .unimpl 0xF029

/-! ## The step -/

/-- A running core whose two bytes at `PC` lie in memory executes the instruction they decode to, high byte first, with
`PC` already advanced by 2 (R63; R90, R110, R112). -/
def Obligations.StepRunsTheDecodedInstruction : Prop :=
  ∀ (s : State) (op : Word), s.phase = .run → s.pc.toNat + 1 < 4096 →
    op.toNat = 256 * (s.mem.read s.pc.toNat).toNat + (s.mem.read (s.pc.toNat + 1)).toNat →
    decodeBytes [s.mem.read s.pc.toNat, s.mem.read (s.pc.toNat + 1)] = .ok (decode op, []) ∧
    step s = exec (decode op) { s with pc := s.pc + 2 } ∧ (s.pc + 2).toNat = s.pc.toNat + 2

/-- The first step after reset begins the run, and is otherwise a step of a running core, its events included
(R39, R110; decision D18, log entry 12). -/
def Obligations.FirstStepBeginsTheRun : Prop :=
  ∀ s : State, s.phase = .load →
    step s = step { s with phase := .run } ∧ stepEvent s = stepEvent { s with phase := .run } ∧
    ∀ t, step s = .next t → t.phase = .run

/-- Where `PC` or `PC + 1` is 4096 or more the step raises the fetch fault: nothing is read, `PC` stays, `FAULT` is
`{2, 0x0000}`, nothing else changes, and no event is emitted (R111, R202, R209; decisions D2, D3, log entry 12). -/
def Obligations.FetchOutsideMemoryFaults : Prop :=
  ∀ s : State, s.phase ≠ .halted → s.pc.toNat + 1 ≥ 4096 →
    stepEvent s = none ∧ ∃ h, step s = .fault (.invalidAddressFetch h) ∧ AllBut [.phase, .fault] s h ∧
      h.phase = .halted ∧ h.fault = ⟨2, 0⟩

/-- A halted core ignores `Step`, `Tick` and `Load`, emits nothing, and is left by `Reset` only (R39, R110, R211,
R215; decisions D16, D18, D28, log entry 12). That the outcome of its step is a next state, the same one, is the
model's choice between R110 and U25 (log entry 4); that its load answers one is log entry 14. -/
def Obligations.HaltedCoreIgnoresAllButReset : Prop :=
  ∀ (s : State) (t : Transaction), s.phase = .halted →
    s.emits t = none ∧ (t ≠ .reset → s.after t = s) ∧ s.after .reset = State.reset ∧ step s = .next s

/-! ## Control transfer -/

/-- CLS: every cell unlit, so every physical pixel is `COLOR_BG`; VF and all else unchanged (R166). -/
def Obligations.ClsClearsEveryCell : Prop :=
  Encodes .cls 0x00E0 ∧ ∀ s : State, ∃ t, exec .cls s = .next t ∧ (∀ X Y, t.disp.lit X Y = false) ∧
    (∀ c k, pixelAt c t.disp k = c.colorBg) ∧ AllBut [.disp] s t

/-- RET: with a non-empty stack `PC` is the top entry and `SP` goes down by one, the popped entry staying in `STACK`;
with an empty one `StackUnderflow` is raised and nothing else changes (R113). That the fault leaves the advanced `PC`
and all else as it was is the spec's decision D2, and that its outcome carries the halted state the model's (R209; log
entries 3 and 12). -/
def Obligations.RetPopsTheReturnAddress : Prop :=
  Encodes .ret 0x00EE ∧
  (∀ (s : State) (k : Fin 16), s.spValue = k.val →
    ∃ t, exec .ret s = .next t ∧ t.pc = s.stack[k] ∧ t.spValue = s.spValue - 1 ∧ AllBut [.pc, .sp] s t) ∧
  (∀ s : State, s.spValue = -1 → ∃ h, exec .ret s = .fault (.stackUnderflow h) ∧ AllBut [.phase, .fault] s h)

/-- CALL: the advanced `PC` is pushed at `SP + 1` and `PC` becomes `nnn`; with `SP = 15` `StackOverflow` is raised and
neither `SP`, `STACK` nor `PC` changes (R115). That the target is not checked is the spec's decision D25, that the fault
changes nothing else its decision D2, and that its outcome carries the halted state the model's (R209; log entries 3
and 12). -/
def Obligations.CallPushesTheAdvancedPC : Prop :=
  ∀ nnn : BitVec 12, Encodes (.call nnn) (0x2000 + nnn.toNat) ∧
  (∀ (s : State) (k : Fin 16), s.spValue + 1 = k.val →
    ∃ t, exec (.call nnn) s = .next t ∧ t.pc.toNat = nnn.toNat ∧ t.spValue = s.spValue + 1 ∧ t.stack[k] = s.pc ∧
      (∀ j : Fin 16, j ≠ k → t.stack[j] = s.stack[j]) ∧ AllBut [.pc, .sp, .stack] s t) ∧
  (∀ s : State, s.spValue = 15 → ∃ h, exec (.call nnn) s = .fault (.stackOverflow h) ∧ AllBut [.phase, .fault] s h)

/-- A RET after a CALL, wherever the callee left `PC`, returns to the instruction after the CALL and restores `SP`
(R113, R115, the example of 95_test_vectors.md T5). -/
def Obligations.RetUndoesCall : Prop :=
  ∀ (nnn : BitVec 12) (s t : State) (pc : Word), s.spValue < 15 → exec (.call nnn) s = .next t →
    ∃ u, exec .ret { t with pc := pc } = .next u ∧ u.pc = s.pc ∧ u.spValue = s.spValue

/-- JP: `PC` becomes `nnn`; JP V0: `PC` becomes `nnn + V[0]`, not reduced. Neither checks the target, which is the
spec's decision D25 (R114, R120; log entry 12). -/
def Obligations.JumpsSetPCUnchecked : Prop :=
  ∀ nnn : BitVec 12, Encodes (.jp nnn) (0x1000 + nnn.toNat) ∧ Encodes (.jpV0 nnn) (0xB000 + nnn.toNat) ∧
  ∀ s : State,
    (∃ t, exec (.jp nnn) s = .next t ∧ t.pc.toNat = nnn.toNat ∧ AllBut [.pc] s t) ∧
    (∃ t, exec (.jpV0 nnn) s = .next t ∧ t.pc.toNat = nnn.toNat + (s.getV 0).toNat ∧ AllBut [.pc] s t)

/-- SE Vx, kk and SNE Vx, kk: `PC` goes up by 2 more exactly when the condition holds; nothing else changes
(R116, R117). -/
def Obligations.SkipsOnImmediate : Prop :=
  ∀ (x : Reg) (kk : Byte), Encodes (.seImm x kk) (0x3000 + 0x100 * x.val + kk.toNat) ∧
    Encodes (.sneImm x kk) (0x4000 + 0x100 * x.val + kk.toNat) ∧
  ∀ s : State,
    (∃ t, exec (.seImm x kk) s = .next t ∧ AllBut [.pc] s t ∧
      t.pc = if (s.getV x).toNat = kk.toNat then s.pc + 2 else s.pc) ∧
    (∃ t, exec (.sneImm x kk) s = .next t ∧ AllBut [.pc] s t ∧
      t.pc = if (s.getV x).toNat ≠ kk.toNat then s.pc + 2 else s.pc)

/-- SE Vx, Vy and SNE Vx, Vy: as the immediate skips, on two registers (R118, R119). That a word of family 5 or 9 whose
low nibble is not 0 is unimplemented is the spec's decision D7 (R97; log entry 12). -/
def Obligations.SkipsOnRegisters : Prop :=
  ∀ x y : Reg, Encodes (.seReg x y) (0x5000 + 0x100 * x.val + 0x10 * y.val) ∧
    Encodes (.sneReg x y) (0x9000 + 0x100 * x.val + 0x10 * y.val) ∧
  (∀ n, 1 ≤ n → n ≤ 15 → ∀ fam, fam = 0x5000 ∨ fam = 0x9000 →
    decode (BitVec.ofNat 16 (fam + 0x100 * x.val + 0x10 * y.val + n)) =
      .unimpl (BitVec.ofNat 16 (fam + 0x100 * x.val + 0x10 * y.val + n))) ∧
  ∀ s : State,
    (∃ t, exec (.seReg x y) s = .next t ∧ AllBut [.pc] s t ∧
      t.pc = if (s.getV x).toNat = (s.getV y).toNat then s.pc + 2 else s.pc) ∧
    (∃ t, exec (.sneReg x y) s = .next t ∧ AllBut [.pc] s t ∧
      t.pc = if (s.getV x).toNat ≠ (s.getV y).toNat then s.pc + 2 else s.pc)

/-! ## Register load, arithmetic, logic -/

/-- LD Vx, kk and LD Vx, Vy: the named register receives the byte or the other register; nothing else changes, VF
included unless it is the register named (R132, R134). -/
def Obligations.LoadsWriteTheNamedRegister : Prop :=
  ∀ (x y : Reg) (kk : Byte), Encodes (.ldImm x kk) (0x6000 + 0x100 * x.val + kk.toNat) ∧
    Encodes (.ldReg x y) (0x8000 + 0x100 * x.val + 0x10 * y.val) ∧
  ∀ s : State,
    (∃ t, exec (.ldImm x kk) s = .next t ∧ t.getV x = kk ∧ OnlyRegs [x] s t) ∧
    (∃ t, exec (.ldReg x y) s = .next t ∧ t.getV x = s.getV y ∧ OnlyRegs [x] s t)

/-- ADD Vx, kk: the sum modulo 256; no flag (R133). -/
def Obligations.AddImmediateWrapsWithoutFlag : Prop :=
  ∀ (x : Reg) (kk : Byte), Encodes (.addImm x kk) (0x7000 + 0x100 * x.val + kk.toNat) ∧
  ∀ s : State, ∃ t, exec (.addImm x kk) s = .next t ∧
    (t.getV x).toNat = ((s.getV x).toNat + kk.toNat) % 256 ∧ OnlyRegs [x] s t

/-- OR, AND and XOR act bit by bit on the two registers, and leave VF alone unless it is the destination
(R135, R136, R137). -/
def Obligations.LogicActsBitByBit : Prop :=
  ∀ x y : Reg, Encodes (.orReg x y) (0x8001 + 0x100 * x.val + 0x10 * y.val) ∧
    Encodes (.andReg x y) (0x8002 + 0x100 * x.val + 0x10 * y.val) ∧
    Encodes (.xorReg x y) (0x8003 + 0x100 * x.val + 0x10 * y.val) ∧
  ∀ s : State,
    (∃ t, exec (.orReg x y) s = .next t ∧ OnlyRegs [x] s t ∧
      ∀ b < 8, (t.getV x).getLsbD b = ((s.getV x).getLsbD b || (s.getV y).getLsbD b)) ∧
    (∃ t, exec (.andReg x y) s = .next t ∧ OnlyRegs [x] s t ∧
      ∀ b < 8, (t.getV x).getLsbD b = ((s.getV x).getLsbD b && (s.getV y).getLsbD b)) ∧
    (∃ t, exec (.xorReg x y) s = .next t ∧ OnlyRegs [x] s t ∧
      ∀ b < 8, (t.getV x).getLsbD b = ((s.getV x).getLsbD b ^^ (s.getV y).getLsbD b))

/-- ADD Vx, Vy: the sum modulo 256 to `V[x]`, the carry to VF, written second so that for `x = 15` VF ends as the
carry (R138). -/
def Obligations.AddRegistersReportsCarry : Prop :=
  ∀ x y : Reg, Encodes (.addReg x y) (0x8004 + 0x100 * x.val + 0x10 * y.val) ∧
  ∀ s : State, ∃ t, exec (.addReg x y) s = .next t ∧ OnlyRegs [x, 15] s t ∧
    (t.getV 15).toNat = flagNat ((s.getV x).toNat + (s.getV y).toNat > 255) ∧
    (x ≠ 15 → (t.getV x).toNat = ((s.getV x).toNat + (s.getV y).toNat) % 256)

/-- SUB and SUBN: the difference modulo 256 to `V[x]`, and VF is 1 exactly when the minuend is strictly greater; for
`x = 15` VF ends as the difference, which is the spec's decision D4 (R139, R141, R131; log entry 12). -/
def Obligations.SubtractionsReportStrictlyGreater : Prop :=
  ∀ x y : Reg, Encodes (.subReg x y) (0x8005 + 0x100 * x.val + 0x10 * y.val) ∧
    Encodes (.subnReg x y) (0x8007 + 0x100 * x.val + 0x10 * y.val) ∧
  ∀ s : State,
    (∃ t, exec (.subReg x y) s = .next t ∧ OnlyRegs [x, 15] s t ∧
      (t.getV x).toNat = ((s.getV x).toNat + 256 - (s.getV y).toNat) % 256 ∧
      (x ≠ 15 → (t.getV 15).toNat = flagNat ((s.getV x).toNat > (s.getV y).toNat))) ∧
    (∃ t, exec (.subnReg x y) s = .next t ∧ OnlyRegs [x, 15] s t ∧
      (t.getV x).toNat = ((s.getV y).toNat + 256 - (s.getV x).toNat) % 256 ∧
      (x ≠ 15 → (t.getV 15).toNat = flagNat ((s.getV y).toNat > (s.getV x).toNat)))

/-- SHR and SHL: `V[x]` is halved, or doubled modulo 256, and VF is the bit shifted out, bit 0 or bit 7; `y` is
ignored; for `x = 15` VF ends as the shifted value, which is the spec's decision D4 (R140, R142, R131; log
entry 12). -/
def Obligations.ShiftsMoveOneBitToVF : Prop :=
  ∀ x y : Reg, Encodes (.shr x y) (0x8006 + 0x100 * x.val + 0x10 * y.val) ∧
    Encodes (.shl x y) (0x800E + 0x100 * x.val + 0x10 * y.val) ∧
  ∀ s : State,
    (∃ t, exec (.shr x y) s = .next t ∧ OnlyRegs [x, 15] s t ∧
      (t.getV x).toNat = (s.getV x).toNat / 2 ∧ (x ≠ 15 → (t.getV 15).toNat = (s.getV x).toNat % 2)) ∧
    (∃ t, exec (.shl x y) s = .next t ∧ OnlyRegs [x, 15] s t ∧
      (t.getV x).toNat = (s.getV x).toNat * 2 % 256 ∧ (x ≠ 15 → (t.getV 15).toNat = (s.getV x).toNat / 128))

/-! ## Index register and memory -/

/-- LD I, nnn: `I` becomes `nnn` (R150). -/
def Obligations.LoadIndexSetsAddress : Prop :=
  ∀ nnn : BitVec 12, Encodes (.ldI nnn) (0xA000 + nnn.toNat) ∧
  ∀ s : State, ∃ t, exec (.ldI nnn) s = .next t ∧ t.i.toNat = nnn.toNat ∧ AllBut [.i] s t

/-- ADD I, Vx: the sum modulo 65536, no flag and no fault, which is the spec's decision D5 (R151; log entry 12). -/
def Obligations.AddToIndexWrapsWithoutFlag : Prop :=
  ∀ x : Reg, Encodes (.addI x) (0xF01E + 0x100 * x.val) ∧
  ∀ s : State, ∃ t, exec (.addI x) s = .next t ∧ t.i.toNat = (s.i.toNat + (s.getV x).toNat) % 65536 ∧ AllBut [.i] s t

/-- LD B, Vx: hundreds, tens and ones at `I`, `I + 1`, `I + 2`, every other byte and all else unchanged; with
`I + 2 >= 4096` the data fault is raised and nothing is written. That `I` is unchanged is the spec's decision D6, that
nothing is written its decision D2 (R152, R155; log entry 12). -/
def Obligations.StoreDecimalDigits : Prop :=
  ∀ x : Reg, Encodes (.ldB x) (0xF033 + 0x100 * x.val) ∧
  (∀ s : State, s.mem.wf = true → s.i.toNat + 2 < 4096 →
    ∃ t, exec (.ldB x) s = .next t ∧ AllBut [.mem] s t ∧
      (t.mem.read s.i.toNat).toNat = (s.getV x).toNat / 100 ∧
      (t.mem.read (s.i.toNat + 1)).toNat = (s.getV x).toNat / 10 % 10 ∧
      (t.mem.read (s.i.toNat + 2)).toNat = (s.getV x).toNat % 10 ∧
      ∀ a, a < s.i.toNat ∨ s.i.toNat + 2 < a → t.mem.read a = s.mem.read a) ∧
  (∀ s : State, s.i.toNat + 2 ≥ 4096 →
    ∃ h, exec (.ldB x) s = .fault (.invalidAddressData h) ∧ AllBut [.phase, .fault] s h)

/-- LD [I], Vx: the byte at `I + k` becomes `V[k]` for `k` from 0 to `x`, every other byte and all else unchanged;
with `I + x >= 4096` the data fault is raised and nothing is written (R153, R155; decisions D2, D6, log entry 12). -/
def Obligations.StoreRegisterBlock : Prop :=
  ∀ x : Reg, Encodes (.ldMemVx x) (0xF055 + 0x100 * x.val) ∧
  (∀ s : State, s.mem.wf = true → s.i.toNat + x.val < 4096 →
    ∃ t, exec (.ldMemVx x) s = .next t ∧ AllBut [.mem] s t ∧
      (∀ k : Reg, k.val ≤ x.val → t.mem.read (s.i.toNat + k.val) = s.getV k) ∧
      ∀ a, a < s.i.toNat ∨ s.i.toNat + x.val < a → t.mem.read a = s.mem.read a) ∧
  (∀ s : State, s.i.toNat + x.val ≥ 4096 →
    ∃ h, exec (.ldMemVx x) s = .fault (.invalidAddressData h) ∧ AllBut [.phase, .fault] s h)

/-- LD Vx, [I]: `V[k]` becomes the byte at `I + k` for `k` from 0 to `x`, the registers above and all else unchanged;
with `I + x >= 4096` the data fault is raised and no register changes (R154, R155; decisions D2, D6, log
entry 12). -/
def Obligations.LoadRegisterBlock : Prop :=
  ∀ x : Reg, Encodes (.ldVxMem x) (0xF065 + 0x100 * x.val) ∧
  (∀ s : State, s.i.toNat + x.val < 4096 →
    ∃ t, exec (.ldVxMem x) s = .next t ∧ AllBut [.v] s t ∧
      (∀ k : Reg, k.val ≤ x.val → t.getV k = s.mem.read (s.i.toNat + k.val)) ∧
      ∀ k : Reg, x.val < k.val → t.getV k = s.getV k) ∧
  (∀ s : State, s.i.toNat + x.val ≥ 4096 →
    ∃ h, exec (.ldVxMem x) s = .fault (.invalidAddressData h) ∧ AllBut [.phase, .fault] s h)

/-- Stores are seen by the very next fetch: after any instruction that completes, the word fetched at the `PC` it
leaves is made of the bytes it stored there, and of the bytes memory held before where it stored none. The instructions
that store are LD B and LD [I], Vx, wherever their bytes lie and whichever of the two bytes of the word they reach
(R77, R64, R248). -/
def Obligations.StoredCodeIsFetchedNext : Prop :=
  ∀ (i : Instr) (s t : State), s.mem.wf = true → exec i s = .next t → t.pc.toNat + 1 < 4096 →
    ∃ op, t.fetch = some op ∧
      op.toNat = 256 * (storedByte i s t.pc.toNat).getD (s.mem.read t.pc.toNat).toNat +
        (storedByte i s (t.pc.toNat + 1)).getD (s.mem.read (t.pc.toNat + 1)).toNat

/-! ## Display -/

/-- DRW, where it does not fault: exactly the cells the set bits of the sprite land on are toggled, each coordinate
reduced separately; only the display and VF change. That `n = 0` makes no access and no check is the spec's decision
D8 (R167, R168, R169; log entry 12). -/
def Obligations.DrawTogglesSpriteCells : Prop :=
  ∀ (x y : Reg) (n : BitVec 4), Encodes (.drw x y n) (0xD000 + 0x100 * x.val + 0x10 * y.val + n.toNat) ∧
  ∀ s : State, n = 0 ∨ s.i.toNat + n.toNat - 1 < 4096 →
    ∃ t, exec (.drw x y n) s = .next t ∧ AllBut [.v, .disp] s t ∧ RegsBut [15] s t ∧
      ∀ X Y, (Toggles s (s.getV x) (s.getV y) n.toNat X Y → t.disp.lit X Y = !s.disp.lit X Y) ∧
        (¬ Toggles s (s.getV x) (s.getV y) n.toNat X Y → t.disp.lit X Y = s.disp.lit X Y)

/-- DRW writes VF in every draw that does not fault: 1 if some cell went from lit to unlit, else 0 (R167, R169). -/
def Obligations.DrawReportsCollisions : Prop :=
  ∀ (x y : Reg) (n : BitVec 4) (s t : State), exec (.drw x y n) s = .next t →
    ((∃ X Y, s.disp.lit X Y = true ∧ t.disp.lit X Y = false) → t.getV 15 = 1) ∧
    ((∀ X Y, s.disp.lit X Y = true → t.disp.lit X Y = true) → t.getV 15 = 0)

/-- DRW with `n = 0` draws nothing, sets VF to 0 and faults for no value of `I`; with `n >= 1` and
`I + n - 1 >= 4096` it raises the data fault before any cell or VF is written (R167, R169; decision D8, log
entry 12). -/
def Obligations.DrawChecksItsWholeRange : Prop :=
  ∀ (x y : Reg) (s : State),
    (∃ t, exec (.drw x y 0) s = .next t ∧ OnlyRegs [15] s t ∧ t.getV 15 = 0) ∧
    ∀ n : BitVec 4, 1 ≤ n.toNat → s.i.toNat + n.toNat - 1 ≥ 4096 →
      ∃ h, exec (.drw x y n) s = .fault (.invalidAddressData h) ∧ AllBut [.phase, .fault] s h

/-- Drawing a sprite twice at the same position restores the display exactly, and the second draw reports a collision
exactly when some dot of the sprite was lit after the first (R169). -/
def Obligations.DrawTwiceRestoresTheDisplay : Prop :=
  ∀ (x y : Reg) (n : BitVec 4) (s t : State), exec (.drw x y n) s = .next t →
    t.getV x = s.getV x → t.getV y = s.getV y →
    ∃ u, exec (.drw x y n) t = .next u ∧ (∀ X Y, u.disp.lit X Y = s.disp.lit X Y) ∧
      (u.getV 15 = 1 ↔ ∃ X Y, Toggles s (s.getV x) (s.getV y) n.toNat X Y ∧ t.disp.lit X Y = true)

/-- The display adapter's picture: `PIX` has `PHYS_W * PHYS_H` pixels, every pixel of the block of a cell has the
colour of the cell, and so a cell can be recovered from any one of them. The order of the pixels is the spec's
decision D12, the two colours differing its decision D13 (R38, R170; log entry 12). -/
def Obligations.PixelBufferShowsTheDisplay : Prop :=
  ∀ (c : Config) (d : Display), c.wf = true → (pixelBuffer c d).length = c.physW * c.physH ∧
    ∀ (X : Fin 64) (Y : Fin 32) (i j : Nat), i < c.physW / 64 → j < c.physH / 32 →
      ∃ p, (pixelBuffer c d)[(Y.val * (c.physH / 32) + j) * c.physW + (X.val * (c.physW / 64) + i)]? = some p ∧
        (d.lit X Y = true → p = c.colorOn) ∧ (d.lit X Y = false → p = c.colorBg) ∧
        (p = c.colorOn ↔ d.lit X Y = true)

/-! ## Timers -/

/-- The three timer instructions move a byte between `V[x]` and a timer and change nothing else; and no instruction
reads `ST`: with any other value in it every instruction that completes still completes, in a state that differs in
`ST` at most (R180, R181, R182). -/
def Obligations.TimerInstructionsMoveOneByte : Prop :=
  (∀ x : Reg, Encodes (.ldVxDT x) (0xF007 + 0x100 * x.val) ∧ Encodes (.ldDTVx x) (0xF015 + 0x100 * x.val) ∧
    Encodes (.ldSTVx x) (0xF018 + 0x100 * x.val) ∧
  ∀ s : State,
    (∃ t, exec (.ldVxDT x) s = .next t ∧ t.getV x = s.dt ∧ OnlyRegs [x] s t) ∧
    (∃ t, exec (.ldDTVx x) s = .next t ∧ t.dt = s.getV x ∧ AllBut [.dt] s t) ∧
    (∃ t, exec (.ldSTVx x) s = .next t ∧ t.st = s.getV x ∧ AllBut [.st] s t)) ∧
  ∀ (i : Instr) (s t : State) (b : Byte), exec i s = .next t →
    ∃ u, exec i { s with st := b } = .next u ∧ AllBut [.st] t u

/-- `Tick` counts both timers down by one, independently, stopping at 0, and touches nothing else; a halted core's
timers are frozen, which is the spec's decision D16 (R215; log entry 12). -/
def Obligations.TickCountsTimersDown : Prop :=
  ∀ s : State, AllBut [.dt, .st] s (tick s) ∧
    (s.phase ≠ .halted → (tick s).dt.toNat = s.dt.toNat - 1 ∧ (tick s).st.toNat = s.st.toNat - 1) ∧
    (s.phase = .halted → tick s = s)

/-- The tick is invisible to the instruction stream but for the timer instructions: any other instruction, run after a
tick instead of before it, ends in the same state (R213, R217). -/
def Obligations.TickCommutesWithOtherInstructions : Prop :=
  ∀ (i : Instr) (s t : State), (∀ x, i ≠ .ldVxDT x ∧ i ≠ .ldDTVx x ∧ i ≠ .ldSTVx x) → s.phase = .run →
    exec i s = .next t → exec i (tick s) = .next (tick t)

/-- `m` periods of the paced schedule hold `m` ticks, and `k` steps for each where `CLOCK_IPS` is 60 times `k` (R218;
decision D17, log entry 12). That `k` is the quotient rounded down where `CLOCK_IPS` is no multiple of 60 is the model's
choice (log entry 19). -/
def Obligations.PacedScheduleTicksOncePerPeriod : Prop :=
  ∀ (c : Config) (m : Nat), (pacedSchedule c m).count .tick = m ∧
    (∀ k, c.clockIps = 60 * k → (pacedSchedule c m).count .step = m * k) ∧
    (pacedSchedule c m).count .step = m * (c.clockIps / 60) ∧
    ∀ t ∈ pacedSchedule c m, t = .step ∨ t = .tick

/-! ## Unimplemented words and events -/

/-- A word that matches no row of the opcode table: its step changes `PC` by the advance and nothing else, never
faults, and emits `UNIMPL(op)` with the whole word (R190). That the report is an event output of the step is the spec's
decision D26, and that it is a function of the state before the step the model's choice (log entries 5 and 12). -/
def Obligations.UnimplementedWordIsReportedNoOp : Prop :=
  ∀ op : Word, (∀ row ∈ opcodeTable, op &&& row.mask ≠ row.value) →
    decode op = .unimpl op ∧ (∀ s : State, exec (.unimpl op) s = .next s) ∧
    ∀ s : State, s.phase = .run → s.fetch = some op →
      step s = .next { s with pc := s.pc + 2 } ∧ stepEvent s = some (.unimpl op)

/-- A step emits an event exactly when the core is not halted, its fetch is inside memory, and the fetched word
matches no row of the opcode table; no other transaction emits one. That the report is an event output and no state is
the spec's decision D26, its form the model's (R41, R207; log entry 5). -/
def Obligations.OnlyUnimplementedWordsEmitEvents : Prop :=
  ∀ (s : State) (tr : Transaction) (e : Event), s.emits tr = some e ↔
    tr = .step ∧ s.phase ≠ .halted ∧ s.pc.toNat + 1 < 4096 ∧
      ∃ op : Word, op.toNat = 256 * (s.mem.read s.pc.toNat).toNat + (s.mem.read (s.pc.toNat + 1)).toNat ∧
        (∀ row ∈ opcodeTable, op &&& row.mask ≠ row.value) ∧ e = .unimpl op

/-! ## Faults -/

/-- Every instruction, in every state, either raises the one fault R201 lists for it, exactly under its condition, or
completes with a next state: nothing is refused. -/
def Obligations.FaultsAriseExactlyAsListed : Prop :=
  ∀ (i : Instr) (s : State),
    (∀ c, faultOf i s = some c → ∃ f, exec i s = .fault f ∧ f.cause = c) ∧
    (faultOf i s = none → ∃ t, exec i s = .next t)

/-- Faults of a step are precise: the halted state is the state before the step but for `PHASE`, `FAULT` and, for a
fault of the execute part, `PC`, which holds the advanced value; `FAULT` holds the code of the cause and the fetched
word. This is the spec's decisions D1, D2 and D3, and the shape of the outcome the model's (R201, R208, R209; log
entries 3 and 12). -/
def Obligations.StepFaultsArePrecise : Prop :=
  ∀ (s : State) (f : Fault), step s = .fault f →
    AllBut [.pc, .phase, .fault] s f.halted ∧ f.halted.phase = .halted ∧
    (f.cause = .invalidAddressFetch → f.halted.pc = s.pc ∧ f.halted.fault = ⟨2, 0⟩) ∧
    (f.cause ≠ .invalidAddressFetch → f.halted.pc = s.pc + 2 ∧
      (f.halted.fault.op.toNat = 256 * (s.mem.read s.pc.toNat).toNat + (s.mem.read (s.pc.toNat + 1)).toNat) ∧
      (f.cause = .invalidAddressData ∧ f.halted.fault.code = 3 ∨ f.cause = .stackOverflow ∧ f.halted.fault.code = 4 ∨
        f.cause = .stackUnderflow ∧ f.halted.fault.code = 5))

/-! ## What an instruction can change and see -/

/-- An instruction that completes changes no element of the state but those the rules of the state give it
(R22, R27, R30, R31, R32, R34, R35, R37, R66). That LD B, LD [I], LD Vx, [I] and DRW leave `I` unchanged is the spec's
decision D6 (R30, R155; log entry 12). -/
def Obligations.InstructionsChangeOnlyTheirParts : Prop :=
  ∀ (i : Instr) (s t : State), exec i s = .next t → AllBut (writesPart i) s t

/-- The register table: a register not listed as written keeps its value, and a register not listed as read has no
influence: with any other value in it the instruction ends the same way, in a state that differs at most in that
register, and not even there where the register is written (R22). -/
def Obligations.RegistersFollowTheReadWriteTable : Prop :=
  ∀ (i : Instr) (s t : State) (r : Reg), exec i s = .next t →
    (¬ writesReg i r → t.getV r = s.getV r) ∧
    (¬ readsReg i r → ∀ b : Byte, ∃ u, exec i (s.setV r b) = .next u ∧ AllBut [.v] t u ∧ RegsBut [r] t u ∧
      (writesReg i r → u.getV r = t.getV r) ∧ (¬ writesReg i r → u.getV r = b))

/-- A spin: from the first state whose next instruction is a jump to itself no schedule of steps and ticks changes
anything but the timers, and no event is emitted. That this is the end of a run is the spec's decision D20 (R246; log
entry 12). -/
def Obligations.SpinFreezesAllButTimers : Prop :=
  ∀ (s : State) (ts : List Transaction), s.ended → (∀ t ∈ ts, t = .step ∨ t = .tick) →
    AllBut [.dt, .st] s (runSchedule s ts) ∧ eventsOf s ts = [] ∧ step s = .next s

/-- What the host reads of the core: the display, the phase and the fault record (R44, R245); `ST`, which R182 and R219
say it can observe; and of a halted core `PC` and `I`, which R201 says are readable. That `PC`, `I` and `ST` are part of
the observation, and `ST` in every phase, is the model's choice (log entries 20 and 21).
Reading changes nothing and emits nothing. -/
def Obligations.ObservationShowsWhatTheHostReads : Prop :=
  ∀ s : State, (observe s).disp = s.disp ∧ (observe s).phase = s.phase ∧ (observe s).fault = s.fault ∧
    (observe s).st = s.st ∧
    (s.phase = .halted → (observe s).haltedAt = some (s.pc, s.i)) ∧
    (s.phase ≠ .halted → (observe s).haltedAt = none) ∧ s.after .observe = s ∧ s.emits .observe = none

/-! ## Loading and booting -/

/-- `LoadProgram` before the run: up to 3584 bytes are stored verbatim from 0x200 upward and nothing else changes; more
bytes raise `OutOfBounds` (R72). That a failed load stores no byte is the spec's decision D19 (R70; log entry 12). -/
def Obligations.LoadProgramStoresVerbatim : Prop :=
  ∀ (s : State) (bytes : List Byte), s.phase = .load → s.mem.wf = true →
    (0x200 + bytes.length ≤ 4096 → ∃ t, loadProgram bytes s = .next t ∧ AllBut [.mem] s t ∧
      (∀ k, ∀ h : k < bytes.length, t.mem.read (0x200 + k) = bytes[k]) ∧
      ∀ a, a < 0x200 ∨ 0x200 + bytes.length ≤ a → t.mem.read a = s.mem.read a) ∧
    (0x200 + bytes.length > 4096 → ∃ h, loadProgram bytes s = .fault (.outOfBounds h) ∧ AllBut [.phase, .fault] s h)

/-- `LoadFont` before the run: the bytes are stored verbatim from `FONT_BASE` upward and nothing else changes where they
end at or below 0x200; else `OutOfBounds` is raised, with `FAULT = {1, 0x0000}` (R71, R206). That a failed load stores
no byte is the spec's decision D19, and that a load outside `LOAD` phase is refused without effect its decision D18
(R70; log entries 12 and 14). -/
def Obligations.LoadFontStaysBelowTheProgram : Prop :=
  ∀ (c : Config) (s : State) (bytes : List Byte), s.mem.wf = true →
    (s.phase ≠ .load → loadFont c bytes s = .next s) ∧
    (s.phase = .load → c.fontBase + bytes.length ≤ 0x200 → ∃ t, loadFont c bytes s = .next t ∧ AllBut [.mem] s t ∧
      (∀ k, ∀ h : k < bytes.length, t.mem.read (c.fontBase + k) = bytes[k]) ∧
      ∀ a, a < c.fontBase ∨ c.fontBase + bytes.length ≤ a → t.mem.read a = s.mem.read a) ∧
    (s.phase = .load → c.fontBase + bytes.length > 0x200 → ∃ h, loadFont c bytes s = .fault (.outOfBounds h) ∧
      AllBut [.phase, .fault] s h ∧ h.phase = .halted ∧ h.fault = ⟨1, 0⟩)

/-- `Load`: refused without effect outside `LOAD` phase; with the bytes past the limit nothing is copied and the core
halts with `FAULT = {1, 0x0000}`; else exactly the bytes from `offset` on are replaced. Refusal and halt are the spec's
decisions D18 and D19, the bound 4096 for a limit beyond it the model's (R70, R206; log entries 8 and 12). -/
def Obligations.LoadCopiesAllOrNothing : Prop :=
  ∀ (s : State) (bytes : List Byte) (offset limit : Nat), s.mem.wf = true → limit ≤ 4096 →
    (s.phase ≠ .load → load bytes offset limit s = .next s) ∧
    (s.phase = .load → offset + bytes.length > limit → ∃ h, load bytes offset limit s = .fault (.outOfBounds h) ∧
      AllBut [.phase, .fault] s h ∧ h.phase = .halted ∧ h.fault = ⟨1, 0⟩) ∧
    (s.phase = .load → offset + bytes.length ≤ limit → ∃ t, load bytes offset limit s = .next t ∧ AllBut [.mem] s t ∧
      ∀ a, t.mem.read a = if offset ≤ a then bytes.getD (a - offset) (s.mem.read a) else s.mem.read a)

/-- A successful load repeated with the same arguments changes nothing, and loads of disjoint ranges may be exchanged
(R73). -/
def Obligations.LoadsAreIdempotentAndCommute : Prop :=
  ∀ (s t : State) (bs cs : List Byte) (off lim off' lim' : Nat), s.mem.wf = true → s.phase = .load →
    load bs off lim s = .next t →
    load bs off lim t = .next t ∧
    (off + bs.length ≤ off' ∨ off' + cs.length ≤ off → ∀ u, load cs off' lim' t = .next u →
      ∃ v, load cs off' lim' s = .next v ∧ load bs off lim v = .next u)

/-- The launch state: the font, the program, zeros elsewhere, and everything else as reset leaves it (R244). -/
def Obligations.LaunchStateHoldsFontAndProgram : Prop :=
  ∀ (c : Config) (rom : List Byte), rom.length ≤ 3584 → c.fontBase + c.fontData.length ≤ 0x200 →
    AllBut [.mem] State.reset (launchState c rom) ∧
    ∀ a, (launchState c rom).mem.read a =
      if c.fontBase ≤ a ∧ a < c.fontBase + c.fontData.length then c.fontData.getD (a - c.fontBase) 0
      else if 0x200 ≤ a ∧ a < 0x200 + rom.length then rom.getD (a - 0x200) 0 else 0

/-! ## Pins -/

/-- What a clock edge does, for every combination of the request pins. `rst` overrides every other input. Outside `LOAD`
phase `load_en` does nothing, and `load_fail` nothing either, which the model reads from R70. In `LOAD` phase a byte on the load port is written, `load_fail` latches
`OutOfBounds`, and a `Tick` comes after either, which is the model's choice; two or more of `load_en`, `load_fail` and
`step_en` there are a move the host never makes, and the edge then has no result, which is the model's choice too. A
`Tick` presented with a `Step` comes after it. `unimpl_valid` and `unimpl_op` show the event of the step, and `halted`,
`fault_code`, `fault_op` and `disp_lit` the state after the edge. The binding is the spec's decision D22, one edge for
a `Step` and so `busy` never 1 the model's choice (R45; log entry 9). -/
def Obligations.ClockEdgePerformsTransactions : Prop :=
  ∀ (p : PinsIn) (s : State),
    (p.rst = true → ∃ o, clockEdge p s = some (State.reset, o) ∧ o.unimpl = none) ∧
    (p.rst = false → (s.phase ≠ .load ∨ p.loadEn = false ∧ p.loadFail = false) →
      ∃ o, clockEdge p s = some (ticked p.tickEn (stepped p.stepEn s), o) ∧
        o.unimpl = if p.stepEn then (stepEvent s).map eventWord else none) ∧
    (p.rst = false → s.phase = .load → p.loadEn = true → p.loadFail = false → p.stepEn = false →
      ∃ o, clockEdge p s = some (ticked p.tickEn { s with mem := s.mem.write p.loadAddr.toNat p.loadData }, o) ∧
        o.unimpl = none) ∧
    (p.rst = false → s.phase = .load → p.loadEn = false → p.loadFail = true → p.stepEn = false →
      ∃ h o, clockEdge p s = some (h, o) ∧ AllBut [.phase, .fault] s h ∧ h.phase = .halted ∧ h.fault = ⟨1, 0⟩ ∧
        o.unimpl = none) ∧
    (p.rst = false → s.phase = .load →
      (p.loadEn = true ∧ p.loadFail = true ∨ p.loadEn = true ∧ p.stepEn = true ∨ p.loadFail = true ∧ p.stepEn = true) →
      clockEdge p s = none) ∧
    ∀ t o, clockEdge p s = some (t, o) →
      o.busy = false ∧ (o.halted = true ↔ t.phase = .halted) ∧ o.faultCode = t.fault.code ∧ o.faultOp = t.fault.op ∧
      o.dispLit = t.disp.lit p.dispX.toFin p.dispY.toFin
end

