-- ==== Sys2Proof/Laws/Decode.lean ====
section
/-! SUPPORT. The formats and the fields as numbers, and what each field of a word built in a format is. -/

namespace Sys2Proof

theorem toNat_append_eq {n m : Nat} (a : BitVec n) (b : BitVec m) :
    (a ++ b).toNat = a.toNat * 2 ^ m + b.toNat := by
  rw [BitVec.toNat_append, ← Nat.shiftLeft_add_eq_or_of_lt b.isLt, Nat.shiftLeft_eq]

/-! ## Formats (R94) -/

theorem toNat_wordA (f : BitVec 4) (a : BitVec 12) : (wordA f a).toNat = f.toNat * 4096 + a.toNat :=
  toNat_append_eq f a

theorem toNat_wordXK (f : BitVec 4) (x : Reg) (kk : Byte) :
    (wordXK f x kk).toNat = (f.toNat * 16 + x.val) * 256 + kk.toNat :=
  (toNat_append_eq (f ++ regBits x) kk).trans (by rw [toNat_append_eq]; rfl)

theorem toNat_wordXY (f : BitVec 4) (x y : Reg) (n : BitVec 4) :
    (wordXY f x y n).toNat = ((f.toNat * 16 + x.val) * 16 + y.val) * 16 + n.toNat :=
  (toNat_append_eq (f ++ regBits x ++ regBits y) n).trans (by rw [toNat_append_eq, toNat_append_eq]; rfl)

theorem toNat_wordX (x : Reg) (sub : Byte) : (wordX x sub).toNat = (15 * 16 + x.val) * 256 + sub.toNat :=
  toNat_wordXK 0xF#4 x sub

theorem toNat_wordOfBytes (hi lo : Byte) : (wordOfBytes hi lo).toNat = 256 * hi.toNat + lo.toNat :=
  (toNat_append_eq hi lo).trans (by omega)

/-! ## Fields (R91, R92) -/

theorem toNat_famOf (op : Word) : (famOf op).toNat = op.toNat / 4096 := by
  have := op.isLt
  simp only [famOf, BitVec.extractLsb'_toNat, Nat.shiftRight_eq_div_pow]
  omega

theorem val_xOf (op : Word) : (xOf op).val = op.toNat / 256 % 16 := by
  simp only [xOf, BitVec.val_toFin, BitVec.extractLsb'_toNat, Nat.shiftRight_eq_div_pow]

theorem val_yOf (op : Word) : (yOf op).val = op.toNat / 16 % 16 := by
  simp only [yOf, BitVec.val_toFin, BitVec.extractLsb'_toNat, Nat.shiftRight_eq_div_pow]

theorem toNat_nOf (op : Word) : (nOf op).toNat = op.toNat % 16 := by
  simp only [nOf, BitVec.extractLsb'_toNat, Nat.shiftRight_eq_div_pow]
  omega

theorem toNat_kkOf (op : Word) : (kkOf op).toNat = op.toNat % 256 := by
  simp only [kkOf, BitVec.extractLsb'_toNat, Nat.shiftRight_eq_div_pow]
  omega

theorem toNat_nnnOf (op : Word) : (nnnOf op).toNat = op.toNat % 4096 := by
  simp only [nnnOf, BitVec.extractLsb'_toNat, Nat.shiftRight_eq_div_pow]
  omega

theorem toNat_hiByte (w : Word) : (hiByte w).toNat = w.toNat / 256 := by
  have := w.isLt
  simp only [hiByte, BitVec.extractLsb'_toNat, Nat.shiftRight_eq_div_pow]
  omega

theorem toNat_loByte (w : Word) : (loByte w).toNat = w.toNat % 256 := by
  simp only [loByte, BitVec.extractLsb'_toNat, Nat.shiftRight_eq_div_pow]
  omega

/-- A word is its two bytes, high byte first (R63). -/
theorem wordOfBytes_hi_lo (w : Word) : wordOfBytes (hiByte w) (loByte w) = w := by
  apply BitVec.eq_of_toNat_eq
  rw [toNat_wordOfBytes, toNat_hiByte, toNat_loByte]
  omega

/-! ## The fields of a word built in a format -/

section
variable (f : BitVec 4) (a : BitVec 12) (x y : Reg) (kk : Byte) (n : BitVec 4)

@[simp] theorem famOf_wordA : famOf (wordA f a) = f := by
  apply BitVec.eq_of_toNat_eq; rw [toNat_famOf, toNat_wordA]; omega
@[simp] theorem nnnOf_wordA : nnnOf (wordA f a) = a := by
  apply BitVec.eq_of_toNat_eq; rw [toNat_nnnOf, toNat_wordA]; omega
@[simp] theorem famOf_wordXK : famOf (wordXK f x kk) = f := by
  apply BitVec.eq_of_toNat_eq; rw [toNat_famOf, toNat_wordXK]; omega
@[simp] theorem xOf_wordXK : xOf (wordXK f x kk) = x := by
  apply Fin.ext; rw [val_xOf, toNat_wordXK]; omega
@[simp] theorem kkOf_wordXK : kkOf (wordXK f x kk) = kk := by
  apply BitVec.eq_of_toNat_eq; rw [toNat_kkOf, toNat_wordXK]; omega
@[simp] theorem famOf_wordXY : famOf (wordXY f x y n) = f := by
  apply BitVec.eq_of_toNat_eq; rw [toNat_famOf, toNat_wordXY]; omega
@[simp] theorem xOf_wordXY : xOf (wordXY f x y n) = x := by
  apply Fin.ext; rw [val_xOf, toNat_wordXY]; omega
@[simp] theorem yOf_wordXY : yOf (wordXY f x y n) = y := by
  apply Fin.ext; rw [val_yOf, toNat_wordXY]; omega
@[simp] theorem nOf_wordXY : nOf (wordXY f x y n) = n := by
  apply BitVec.eq_of_toNat_eq; rw [toNat_nOf, toNat_wordXY]; omega
@[simp] theorem famOf_wordX : famOf (wordX x kk) = 0xF#4 := famOf_wordXK 0xF#4 x kk
@[simp] theorem xOf_wordX : xOf (wordX x kk) = x := xOf_wordXK 0xF#4 x kk
@[simp] theorem kkOf_wordX : kkOf (wordX x kk) = kk := kkOf_wordXK 0xF#4 x kk

end

end Sys2Proof
end

