-- ==== Sys2Proof/Laws/State.lean ====
section
/-! SUPPORT. One lemma per field per update, so that no proof unfolds a record update. -/

namespace Sys2Proof.Machine

variable (s : State)

@[simp] theorem State.setMem_mem (a : Memory) : (s.setMem a).mem = a := rfl
@[simp] theorem State.setMem_v (a : Memory) : (s.setMem a).v = s.v := rfl
@[simp] theorem State.setMem_i (a : Memory) : (s.setMem a).i = s.i := rfl
@[simp] theorem State.setMem_pc (a : Memory) : (s.setMem a).pc = s.pc := rfl
@[simp] theorem State.setMem_sp (a : Memory) : (s.setMem a).sp = s.sp := rfl
@[simp] theorem State.setMem_stack (a : Memory) : (s.setMem a).stack = s.stack := rfl
@[simp] theorem State.setMem_dt (a : Memory) : (s.setMem a).dt = s.dt := rfl
@[simp] theorem State.setMem_st (a : Memory) : (s.setMem a).st = s.st := rfl
@[simp] theorem State.setMem_disp (a : Memory) : (s.setMem a).disp = s.disp := rfl
@[simp] theorem State.setMem_phase (a : Memory) : (s.setMem a).phase = s.phase := rfl
@[simp] theorem State.setMem_fault (a : Memory) : (s.setMem a).fault = s.fault := rfl

@[simp] theorem State.setRegs_mem (a : Vector Byte 16) : (s.setRegs a).mem = s.mem := rfl
@[simp] theorem State.setRegs_v (a : Vector Byte 16) : (s.setRegs a).v = a := rfl
@[simp] theorem State.setRegs_i (a : Vector Byte 16) : (s.setRegs a).i = s.i := rfl
@[simp] theorem State.setRegs_pc (a : Vector Byte 16) : (s.setRegs a).pc = s.pc := rfl
@[simp] theorem State.setRegs_sp (a : Vector Byte 16) : (s.setRegs a).sp = s.sp := rfl
@[simp] theorem State.setRegs_stack (a : Vector Byte 16) : (s.setRegs a).stack = s.stack := rfl
@[simp] theorem State.setRegs_dt (a : Vector Byte 16) : (s.setRegs a).dt = s.dt := rfl
@[simp] theorem State.setRegs_st (a : Vector Byte 16) : (s.setRegs a).st = s.st := rfl
@[simp] theorem State.setRegs_disp (a : Vector Byte 16) : (s.setRegs a).disp = s.disp := rfl
@[simp] theorem State.setRegs_phase (a : Vector Byte 16) : (s.setRegs a).phase = s.phase := rfl
@[simp] theorem State.setRegs_fault (a : Vector Byte 16) : (s.setRegs a).fault = s.fault := rfl

@[simp] theorem State.setI_mem (a : Word) : (s.setI a).mem = s.mem := rfl
@[simp] theorem State.setI_v (a : Word) : (s.setI a).v = s.v := rfl
@[simp] theorem State.setI_i (a : Word) : (s.setI a).i = a := rfl
@[simp] theorem State.setI_pc (a : Word) : (s.setI a).pc = s.pc := rfl
@[simp] theorem State.setI_sp (a : Word) : (s.setI a).sp = s.sp := rfl
@[simp] theorem State.setI_stack (a : Word) : (s.setI a).stack = s.stack := rfl
@[simp] theorem State.setI_dt (a : Word) : (s.setI a).dt = s.dt := rfl
@[simp] theorem State.setI_st (a : Word) : (s.setI a).st = s.st := rfl
@[simp] theorem State.setI_disp (a : Word) : (s.setI a).disp = s.disp := rfl
@[simp] theorem State.setI_phase (a : Word) : (s.setI a).phase = s.phase := rfl
@[simp] theorem State.setI_fault (a : Word) : (s.setI a).fault = s.fault := rfl

@[simp] theorem State.setPC_mem (a : Word) : (s.setPC a).mem = s.mem := rfl
@[simp] theorem State.setPC_v (a : Word) : (s.setPC a).v = s.v := rfl
@[simp] theorem State.setPC_i (a : Word) : (s.setPC a).i = s.i := rfl
@[simp] theorem State.setPC_pc (a : Word) : (s.setPC a).pc = a := rfl
@[simp] theorem State.setPC_sp (a : Word) : (s.setPC a).sp = s.sp := rfl
@[simp] theorem State.setPC_stack (a : Word) : (s.setPC a).stack = s.stack := rfl
@[simp] theorem State.setPC_dt (a : Word) : (s.setPC a).dt = s.dt := rfl
@[simp] theorem State.setPC_st (a : Word) : (s.setPC a).st = s.st := rfl
@[simp] theorem State.setPC_disp (a : Word) : (s.setPC a).disp = s.disp := rfl
@[simp] theorem State.setPC_phase (a : Word) : (s.setPC a).phase = s.phase := rfl
@[simp] theorem State.setPC_fault (a : Word) : (s.setPC a).fault = s.fault := rfl

@[simp] theorem State.setSP_mem (a : Option (Fin 16)) : (s.setSP a).mem = s.mem := rfl
@[simp] theorem State.setSP_v (a : Option (Fin 16)) : (s.setSP a).v = s.v := rfl
@[simp] theorem State.setSP_i (a : Option (Fin 16)) : (s.setSP a).i = s.i := rfl
@[simp] theorem State.setSP_pc (a : Option (Fin 16)) : (s.setSP a).pc = s.pc := rfl
@[simp] theorem State.setSP_sp (a : Option (Fin 16)) : (s.setSP a).sp = a := rfl
@[simp] theorem State.setSP_stack (a : Option (Fin 16)) : (s.setSP a).stack = s.stack := rfl
@[simp] theorem State.setSP_dt (a : Option (Fin 16)) : (s.setSP a).dt = s.dt := rfl
@[simp] theorem State.setSP_st (a : Option (Fin 16)) : (s.setSP a).st = s.st := rfl
@[simp] theorem State.setSP_disp (a : Option (Fin 16)) : (s.setSP a).disp = s.disp := rfl
@[simp] theorem State.setSP_phase (a : Option (Fin 16)) : (s.setSP a).phase = s.phase := rfl
@[simp] theorem State.setSP_fault (a : Option (Fin 16)) : (s.setSP a).fault = s.fault := rfl

@[simp] theorem State.setStack_mem (a : Vector Word 16) : (s.setStack a).mem = s.mem := rfl
@[simp] theorem State.setStack_v (a : Vector Word 16) : (s.setStack a).v = s.v := rfl
@[simp] theorem State.setStack_i (a : Vector Word 16) : (s.setStack a).i = s.i := rfl
@[simp] theorem State.setStack_pc (a : Vector Word 16) : (s.setStack a).pc = s.pc := rfl
@[simp] theorem State.setStack_sp (a : Vector Word 16) : (s.setStack a).sp = s.sp := rfl
@[simp] theorem State.setStack_stack (a : Vector Word 16) : (s.setStack a).stack = a := rfl
@[simp] theorem State.setStack_dt (a : Vector Word 16) : (s.setStack a).dt = s.dt := rfl
@[simp] theorem State.setStack_st (a : Vector Word 16) : (s.setStack a).st = s.st := rfl
@[simp] theorem State.setStack_disp (a : Vector Word 16) : (s.setStack a).disp = s.disp := rfl
@[simp] theorem State.setStack_phase (a : Vector Word 16) : (s.setStack a).phase = s.phase := rfl
@[simp] theorem State.setStack_fault (a : Vector Word 16) : (s.setStack a).fault = s.fault := rfl

@[simp] theorem State.setDT_mem (a : Byte) : (s.setDT a).mem = s.mem := rfl
@[simp] theorem State.setDT_v (a : Byte) : (s.setDT a).v = s.v := rfl
@[simp] theorem State.setDT_i (a : Byte) : (s.setDT a).i = s.i := rfl
@[simp] theorem State.setDT_pc (a : Byte) : (s.setDT a).pc = s.pc := rfl
@[simp] theorem State.setDT_sp (a : Byte) : (s.setDT a).sp = s.sp := rfl
@[simp] theorem State.setDT_stack (a : Byte) : (s.setDT a).stack = s.stack := rfl
@[simp] theorem State.setDT_dt (a : Byte) : (s.setDT a).dt = a := rfl
@[simp] theorem State.setDT_st (a : Byte) : (s.setDT a).st = s.st := rfl
@[simp] theorem State.setDT_disp (a : Byte) : (s.setDT a).disp = s.disp := rfl
@[simp] theorem State.setDT_phase (a : Byte) : (s.setDT a).phase = s.phase := rfl
@[simp] theorem State.setDT_fault (a : Byte) : (s.setDT a).fault = s.fault := rfl

@[simp] theorem State.setST_mem (a : Byte) : (s.setST a).mem = s.mem := rfl
@[simp] theorem State.setST_v (a : Byte) : (s.setST a).v = s.v := rfl
@[simp] theorem State.setST_i (a : Byte) : (s.setST a).i = s.i := rfl
@[simp] theorem State.setST_pc (a : Byte) : (s.setST a).pc = s.pc := rfl
@[simp] theorem State.setST_sp (a : Byte) : (s.setST a).sp = s.sp := rfl
@[simp] theorem State.setST_stack (a : Byte) : (s.setST a).stack = s.stack := rfl
@[simp] theorem State.setST_dt (a : Byte) : (s.setST a).dt = s.dt := rfl
@[simp] theorem State.setST_st (a : Byte) : (s.setST a).st = a := rfl
@[simp] theorem State.setST_disp (a : Byte) : (s.setST a).disp = s.disp := rfl
@[simp] theorem State.setST_phase (a : Byte) : (s.setST a).phase = s.phase := rfl
@[simp] theorem State.setST_fault (a : Byte) : (s.setST a).fault = s.fault := rfl

@[simp] theorem State.setDisp_mem (a : Display) : (s.setDisp a).mem = s.mem := rfl
@[simp] theorem State.setDisp_v (a : Display) : (s.setDisp a).v = s.v := rfl
@[simp] theorem State.setDisp_i (a : Display) : (s.setDisp a).i = s.i := rfl
@[simp] theorem State.setDisp_pc (a : Display) : (s.setDisp a).pc = s.pc := rfl
@[simp] theorem State.setDisp_sp (a : Display) : (s.setDisp a).sp = s.sp := rfl
@[simp] theorem State.setDisp_stack (a : Display) : (s.setDisp a).stack = s.stack := rfl
@[simp] theorem State.setDisp_dt (a : Display) : (s.setDisp a).dt = s.dt := rfl
@[simp] theorem State.setDisp_st (a : Display) : (s.setDisp a).st = s.st := rfl
@[simp] theorem State.setDisp_disp (a : Display) : (s.setDisp a).disp = a := rfl
@[simp] theorem State.setDisp_phase (a : Display) : (s.setDisp a).phase = s.phase := rfl
@[simp] theorem State.setDisp_fault (a : Display) : (s.setDisp a).fault = s.fault := rfl

@[simp] theorem State.setPhase_mem (a : Phase) : (s.setPhase a).mem = s.mem := rfl
@[simp] theorem State.setPhase_v (a : Phase) : (s.setPhase a).v = s.v := rfl
@[simp] theorem State.setPhase_i (a : Phase) : (s.setPhase a).i = s.i := rfl
@[simp] theorem State.setPhase_pc (a : Phase) : (s.setPhase a).pc = s.pc := rfl
@[simp] theorem State.setPhase_sp (a : Phase) : (s.setPhase a).sp = s.sp := rfl
@[simp] theorem State.setPhase_stack (a : Phase) : (s.setPhase a).stack = s.stack := rfl
@[simp] theorem State.setPhase_dt (a : Phase) : (s.setPhase a).dt = s.dt := rfl
@[simp] theorem State.setPhase_st (a : Phase) : (s.setPhase a).st = s.st := rfl
@[simp] theorem State.setPhase_disp (a : Phase) : (s.setPhase a).disp = s.disp := rfl
@[simp] theorem State.setPhase_phase (a : Phase) : (s.setPhase a).phase = a := rfl
@[simp] theorem State.setPhase_fault (a : Phase) : (s.setPhase a).fault = s.fault := rfl

@[simp] theorem State.setFault_mem (a : FaultRecord) : (s.setFault a).mem = s.mem := rfl
@[simp] theorem State.setFault_v (a : FaultRecord) : (s.setFault a).v = s.v := rfl
@[simp] theorem State.setFault_i (a : FaultRecord) : (s.setFault a).i = s.i := rfl
@[simp] theorem State.setFault_pc (a : FaultRecord) : (s.setFault a).pc = s.pc := rfl
@[simp] theorem State.setFault_sp (a : FaultRecord) : (s.setFault a).sp = s.sp := rfl
@[simp] theorem State.setFault_stack (a : FaultRecord) : (s.setFault a).stack = s.stack := rfl
@[simp] theorem State.setFault_dt (a : FaultRecord) : (s.setFault a).dt = s.dt := rfl
@[simp] theorem State.setFault_st (a : FaultRecord) : (s.setFault a).st = s.st := rfl
@[simp] theorem State.setFault_disp (a : FaultRecord) : (s.setFault a).disp = s.disp := rfl
@[simp] theorem State.setFault_phase (a : FaultRecord) : (s.setFault a).phase = s.phase := rfl
@[simp] theorem State.setFault_fault (a : FaultRecord) : (s.setFault a).fault = a := rfl


end Sys2Proof.Machine
end

