-- ==== Sys2Proof/Laws/Memory.lean ====
section
/-! SUPPORT. What the memory operations do: they keep the canonical form, a read after a write gives the value
written, and every other byte is left alone; two memories in the form that read alike are equal. -/

namespace Sys2Proof.Machine

theorem Memory.wfFrom_cons {lo a : Nat} {b : Byte} {m : Memory} :
    Memory.wfFrom lo ((a, b) :: m) = true ↔
      lo ≤ a ∧ a < memSize ∧ b ≠ Memory.unlisted ∧ Memory.wfFrom (a + 1) m = true := by
  simp [Memory.wfFrom, and_assoc]

theorem Memory.wfFrom_mono {lo lo' : Nat} (h : lo' ≤ lo) : ∀ {m : Memory}, m.wfFrom lo = true → m.wfFrom lo' = true
  | [], _ => rfl
  | (_, _) :: _, hm => by
    rw [Memory.wfFrom_cons] at hm ⊢
    exact ⟨by omega, hm.2⟩

/-- Below the least address of a memory in the form every cell reads as unlisted. -/
theorem Memory.read_below {lo a : Nat} (h : a < lo) : ∀ {m : Memory}, m.wfFrom lo = true → m.read a = Memory.unlisted
  | [], _ => rfl
  | (b, _) :: _, hm => by
    have hb := (Memory.wfFrom_cons.1 hm).1
    rw [Memory.read, if_neg (by omega), if_pos (by omega)]

theorem Memory.wfFrom_consCell {lo a : Nat} {v : Byte} {m : Memory} (hlo : lo ≤ a) (ha : a < memSize)
    (hm : m.wfFrom (a + 1) = true) : (Memory.cons a v m).wfFrom lo = true := by
  unfold Memory.cons
  split
  · exact Memory.wfFrom_mono (by omega) hm
  · exact Memory.wfFrom_cons.2 ⟨hlo, ha, ‹_›, hm⟩

theorem Memory.wfFrom_write {a : Nat} (v : Byte) (ha : a < memSize) :
    ∀ {lo : Nat} {m : Memory}, lo ≤ a → m.wfFrom lo = true → (m.write a v).wfFrom lo = true
  | _, [], hlo, _ => Memory.wfFrom_consCell hlo ha rfl
  | _, (b, w) :: m, hlo, hm => by
    have hm' := Memory.wfFrom_cons.1 hm
    unfold Memory.write
    split
    · exact Memory.wfFrom_consCell hlo ha (Memory.wfFrom_cons.2 ⟨by omega, hm'.2⟩)
    · split
      · subst a; exact Memory.wfFrom_consCell hlo ha hm'.2.2.2
      · exact Memory.wfFrom_cons.2
          ⟨hm'.1, hm'.2.1, hm'.2.2.1, Memory.wfFrom_write v ha (by omega) hm'.2.2.2⟩

/-- A write keeps the canonical form. -/
theorem Memory.wf_write {m : Memory} {a : Nat} (v : Byte) (ha : a < memSize) (hm : m.wf = true) :
    (m.write a v).wf = true :=
  Memory.wfFrom_write v ha (Nat.zero_le a) hm

theorem Memory.read_cons {a c : Nat} {v : Byte} {m : Memory} (hm : m.wfFrom (a + 1) = true) :
    (Memory.cons a v m).read c = if c = a then v else m.read c := by
  unfold Memory.cons
  split
  · split
    · subst c; rw [Memory.read_below (Nat.lt_succ_self a) hm]; exact Eq.symm ‹_›
    · rfl
  · rw [Memory.read]
    split
    · rfl
    · split
      · rw [Memory.read_below (lo := a + 1) (by omega) hm]
      · rfl

theorem Memory.read_write_from {a c : Nat} {v : Byte} :
    ∀ {lo : Nat} {m : Memory}, m.wfFrom lo = true → (m.write a v).read c = if c = a then v else m.read c
  | _, [], _ => Memory.read_cons (m := []) rfl
  | _, (b, w) :: m, hm => by
    have hm' := Memory.wfFrom_cons.1 hm
    unfold Memory.write
    split
    · exact Memory.read_cons (Memory.wfFrom_cons.2 ⟨by omega, hm'.2⟩)
    · split
      · subst a
        rw [Memory.read_cons hm'.2.2.2, Memory.read]
        split
        · rfl
        · split
          · exact Memory.read_below (by omega) hm'.2.2.2
          · rfl
      · rw [Memory.read, Memory.read, Memory.read_write_from hm'.2.2.2]
        split
        · rw [if_neg (by omega)]
        · split
          · rw [if_neg (by omega)]
          · rfl

/-- A read after a write: the byte written at its address, every other byte as before. -/
theorem Memory.read_write {m : Memory} {a c : Nat} {v : Byte} (hm : m.wf = true) :
    (m.write a v).read c = if c = a then v else m.read c :=
  Memory.read_write_from hm

/-- Writing bytes inside the array keeps the canonical form. -/
theorem Memory.wf_writeBytes : ∀ {bs : List Byte} {m : Memory} {a : Nat}, a + bs.length ≤ memSize → m.wf = true →
    (m.writeBytes a bs).wf = true
  | [], _, _, _, hm => hm
  | _ :: bs, _, _, ha, hm => by
    simp only [List.length_cons] at ha
    exact Memory.wf_writeBytes (bs := bs) (by omega) (Memory.wf_write _ (by omega) hm)

/-- A read after bytes were written at ascending addresses: the byte of its address, every other byte as before. -/
theorem Memory.read_writeBytes : ∀ {bs : List Byte} {m : Memory} {a c : Nat}, a + bs.length ≤ memSize →
    m.wf = true → (m.writeBytes a bs).read c = if a ≤ c then bs.getD (c - a) (m.read c) else m.read c
  | [], _, _, _, _, _ => by simp [Memory.writeBytes]
  | b :: bs, m, a, c, ha, hm => by
    simp only [List.length_cons] at ha
    rw [Memory.writeBytes, Memory.read_writeBytes (bs := bs) (by omega) (Memory.wf_write _ (by omega) hm),
      Memory.read_write hm]
    rcases Nat.lt_trichotomy c a with h | h | h
    · rw [if_neg (show ¬ a + 1 ≤ c by omega), if_neg (show ¬ c = a by omega), if_neg (show ¬ a ≤ c by omega)]
    · subst h; simp
    · rw [if_pos (show a + 1 ≤ c by omega), if_neg (show ¬ c = a by omega), if_pos (show a ≤ c by omega),
        show c - a = c - (a + 1) + 1 by omega, List.getD_cons_succ]

/-- Outside the bytes written every byte is as before. -/
theorem Memory.read_writeBytes_outside {bs : List Byte} {m : Memory} {a c : Nat} (ha : a + bs.length ≤ memSize)
    (hm : m.wf = true) (h : c < a ∨ a + bs.length ≤ c) : (m.writeBytes a bs).read c = m.read c := by
  rw [Memory.read_writeBytes ha hm]
  by_cases hc : a ≤ c
  · rw [if_pos hc, List.getD_eq_default _ _ (by omega)]
  · rw [if_neg hc]

theorem Memory.ext_from : ∀ {lo : Nat} {m n : Memory}, m.wfFrom lo = true → n.wfFrom lo = true →
    (∀ a, lo ≤ a → m.read a = n.read a) → m = n
  | _, [], [], _, _, _ => rfl
  | _, [], (b, w) :: n, _, hn, h => by
    have hn' := Memory.wfFrom_cons.1 hn
    exact absurd (by simpa [Memory.read] using (h b hn'.1).symm) hn'.2.2.1
  | _, (b, w) :: m, [], hm, _, h => by
    have hm' := Memory.wfFrom_cons.1 hm
    exact absurd (by simpa [Memory.read] using h b hm'.1) hm'.2.2.1
  | _, (b, w) :: m, (c, x) :: n, hm, hn, h => by
    have hm' := Memory.wfFrom_cons.1 hm
    have hn' := Memory.wfFrom_cons.1 hn
    rcases Nat.lt_trichotomy b c with hbc | hbc | hbc
    · have := h b hm'.1
      rw [Memory.read, if_pos rfl, Memory.read, if_neg (by omega), if_pos hbc] at this
      exact absurd this hm'.2.2.1
    · subst hbc
      have hw : w = x := by simpa [Memory.read] using h b hm'.1
      have : m = n := Memory.ext_from hm'.2.2.2 hn'.2.2.2 fun a ha => by
        have := h a (by omega)
        rw [Memory.read, if_neg (by omega), if_neg (by omega), Memory.read, if_neg (by omega),
          if_neg (by omega)] at this
        exact this
      rw [hw, this]
    · have := h c hn'.1
      rw [Memory.read, if_neg (by omega), if_pos hbc, Memory.read, if_pos rfl] at this
      exact absurd this.symm hn'.2.2.1

/-- Equal memories are equal data. -/
theorem Memory.ext {m n : Memory} (hm : m.wf = true) (hn : n.wf = true) (h : ∀ a, m.read a = n.read a) : m = n :=
  Memory.ext_from hm hn fun a _ => h a

/-- The reset memory is in the canonical form. -/
theorem Memory.reset_wf : State.reset.mem.wf = true := rfl

theorem inRange_iff {a n : Nat} : inRange a n = true ↔ a + n ≤ 4096 := by
  exact decide_eq_true_iff

end Sys2Proof.Machine
end

