-- ==== Sys2Proof/Laws/Ops.lean ====
section
/-! SUPPORT. What each shared operation does, said once: registers, stack, display, faults, range check. -/

namespace Sys2Proof.Machine

variable (s : State)

/-! ## General registers -/

@[simp] theorem State.setV_mem (r : Reg) (b : Byte) : (s.setV r b).mem = s.mem := rfl
@[simp] theorem State.setV_i (r : Reg) (b : Byte) : (s.setV r b).i = s.i := rfl
@[simp] theorem State.setV_pc (r : Reg) (b : Byte) : (s.setV r b).pc = s.pc := rfl
@[simp] theorem State.setV_sp (r : Reg) (b : Byte) : (s.setV r b).sp = s.sp := rfl
@[simp] theorem State.setV_stack (r : Reg) (b : Byte) : (s.setV r b).stack = s.stack := rfl
@[simp] theorem State.setV_dt (r : Reg) (b : Byte) : (s.setV r b).dt = s.dt := rfl
@[simp] theorem State.setV_st (r : Reg) (b : Byte) : (s.setV r b).st = s.st := rfl
@[simp] theorem State.setV_disp (r : Reg) (b : Byte) : (s.setV r b).disp = s.disp := rfl
@[simp] theorem State.setV_phase (r : Reg) (b : Byte) : (s.setV r b).phase = s.phase := rfl
@[simp] theorem State.setV_fault (r : Reg) (b : Byte) : (s.setV r b).fault = s.fault := rfl
@[simp] theorem State.getV_setMem (a : Memory) (r : Reg) : (s.setMem a).getV r = s.getV r := rfl
@[simp] theorem State.getV_setI (a : Word) (r : Reg) : (s.setI a).getV r = s.getV r := rfl
@[simp] theorem State.getV_setPC (a : Word) (r : Reg) : (s.setPC a).getV r = s.getV r := rfl
@[simp] theorem State.getV_setSP (a : Option (Fin 16)) (r : Reg) : (s.setSP a).getV r = s.getV r := rfl
@[simp] theorem State.getV_setStack (a : Vector Word 16) (r : Reg) : (s.setStack a).getV r = s.getV r := rfl
@[simp] theorem State.getV_setDT (a : Byte) (r : Reg) : (s.setDT a).getV r = s.getV r := rfl
@[simp] theorem State.getV_setST (a : Byte) (r : Reg) : (s.setST a).getV r = s.getV r := rfl
@[simp] theorem State.getV_setDisp (a : Display) (r : Reg) : (s.setDisp a).getV r = s.getV r := rfl
@[simp] theorem State.getV_setPhase (a : Phase) (r : Reg) : (s.setPhase a).getV r = s.getV r := rfl
@[simp] theorem State.getV_setFault (a : FaultRecord) (r : Reg) : (s.setFault a).getV r = s.getV r := rfl

/-- A read after a write of a general register. -/
@[simp] theorem State.getV_setV (r q : Reg) (b : Byte) : (s.setV r b).getV q = if q = r then b else s.getV q := by
  simp only [State.setV, State.getV, State.setRegs, Fin.getElem_fin, Vector.getElem_set]
  by_cases h : q = r
  · subst h; simp
  · rw [if_neg h, if_neg (fun h' => h (Fin.ext h'.symm))]

@[simp] theorem State.setFlag_eq (b : Byte) : s.setFlag b = s.setV 15 b := rfl

@[simp] theorem State.advance_eq : s.advance = s.setPC (s.pc + 2) := rfl

@[simp] theorem State.beginRun_eq : s.beginRun = s.setPhase .run := rfl

@[simp] theorem State.setEntry_eq (k : Fin 16) (w : Word) : s.setEntry k w = s.setStack (s.stack.set k w) := rfl

/-- Loading registers changes general registers only. -/
theorem State.loadRegs_eq : ∀ (rs : List Reg) (s : State) (a : Nat), s.loadRegs a rs = s.setRegs (s.loadRegs a rs).v
  | [], _, _ => rfl
  | r :: rs, s, a => State.loadRegs_eq rs (s.setV r (s.mem.read a)) (a + 1)

/-- The registers after a block load: the one at index `k` of the list holds the byte at `a + k`. -/
theorem State.getV_loadRegs (q : Reg) : ∀ (rs : List Reg) (s : State) (a : Nat), rs.Nodup →
    (s.loadRegs a rs).getV q = if q ∈ rs then s.mem.read (a + rs.idxOf q) else s.getV q
  | [], _, _, _ => by simp [State.loadRegs]
  | r :: rs, s, a, hn => by
    rw [List.nodup_cons] at hn
    rw [State.loadRegs, State.getV_loadRegs q rs _ _ hn.2]
    by_cases h : q = r
    · subst h; simp [hn.1]
    · have h' : ¬ r = q := fun e => h e.symm
      by_cases hm : q ∈ rs
      · rw [if_pos hm, if_pos (List.mem_cons_of_mem _ hm), List.idxOf_cons_ne _ h', State.setV_mem]
        congr 1; omega
      · rw [if_neg hm, if_neg (by simp [h, hm])]; simp [h]

theorem mem_regsUpTo : ∀ x q : Reg, q ∈ regsUpTo x ↔ q.val ≤ x.val := by decide

theorem regsUpTo_nodup : ∀ x : Reg, (regsUpTo x).Nodup := by decide

theorem idxOf_regsUpTo : ∀ x q : Reg, q.val ≤ x.val → (regsUpTo x).idxOf q = q.val := by decide

theorem length_regsUpTo : ∀ x : Reg, (regsUpTo x).length = x.val + 1 := by decide

theorem getElem_regsUpTo : ∀ x q : Reg, q.val ≤ x.val → (regsUpTo x)[q.val]? = some q := by decide

/-- `Fx65` in one line: register `q` holds the byte at `a + q` for `q` up to `x`, and its old value above (R154). -/
theorem State.getV_loadRegs_upTo (x q : Reg) (a : Nat) :
    (s.loadRegs a (regsUpTo x)).getV q = if q.val ≤ x.val then s.mem.read (a + q.val) else s.getV q := by
  rw [State.getV_loadRegs q _ _ _ (regsUpTo_nodup x)]
  by_cases h : q.val ≤ x.val
  · rw [if_pos ((mem_regsUpTo x q).2 h), if_pos h, idxOf_regsUpTo x q h]
  · rw [if_neg (fun hm => h ((mem_regsUpTo x q).1 hm)), if_neg h]

/-! ## Call stack -/

theorem spPush_eq_none : ∀ p : Option (Fin 16), spPush p = none ↔ p = some 15 := by decide

theorem spPop_spPush : ∀ (p : Option (Fin 16)) (k : Fin 16), spPush p = some k → spPop k = p := by decide

theorem State.spValue_eq_neg_one : s.spValue = -1 ↔ s.sp = none := by
  unfold State.spValue; split <;> simp_all

theorem State.spValue_eq_coe (k : Fin 16) : s.spValue = (k.val : Int) ↔ s.sp = some k := by
  unfold State.spValue; split <;> simp_all [Fin.ext_iff]

/-- `-1 <= SP <= 15` (R33). -/
theorem State.spValue_range : -1 ≤ s.spValue ∧ s.spValue ≤ 15 := by
  unfold State.spValue; split <;> omega

/-! ## Display -/

/-- Toggling a cell changes that cell and no other. -/
theorem Display.lit_toggle (d : Display) (X Z : Fin 64) (Y W : Fin 32) :
    (d.toggle X Y).lit Z W = (d.lit Z W ^^ decide (X = Z ∧ Y = W)) := by
  unfold Display.toggle Display.lit
  by_cases hy : Y = W
  · subst hy
    simp [Fin.ext_iff, eq_comm]
  · have hy' : ¬ Y.val = W.val := fun h => hy (Fin.ext h)
    simp [hy, hy']

@[simp] theorem Display.lit_clear (X : Fin 64) (Y : Fin 32) : Display.clear.lit X Y = false := by
  simp [Display.clear, Display.lit]

/-- The cells after a list of distinct cells was toggled. -/
theorem Display.lit_drawCells (X : Fin 64) (Y : Fin 32) : ∀ (cs : List (Fin 64 × Fin 32)) (d : Display) (hit : Bool),
    cs.Nodup → (d.drawCells hit cs).1.lit X Y = (d.lit X Y ^^ decide ((X, Y) ∈ cs))
  | [], _, _, _ => by simp [Display.drawCells]
  | (Z, W) :: cs, d, hit, hn => by
    rw [List.nodup_cons] at hn
    rw [Display.drawCells, Display.lit_drawCells X Y cs _ _ hn.2, Display.lit_toggle]
    by_cases h : Z = X ∧ W = Y
    · obtain ⟨rfl, rfl⟩ := h; simp [hn.1]
    · have h' : ¬ (X = Z ∧ Y = W) := fun e => h ⟨e.1.symm, e.2.symm⟩
      simp [h, h']

/-- The collision flag after a list of distinct cells was toggled: some cell of it was lit before. -/
theorem Display.hit_drawCells : ∀ (cs : List (Fin 64 × Fin 32)) (d : Display) (hit : Bool), cs.Nodup →
    (d.drawCells hit cs).2 = (hit || cs.any fun c => d.lit c.1 c.2)
  | [], _, _, _ => by simp [Display.drawCells]
  | (Z, W) :: cs, d, hit, hn => by
    rw [List.nodup_cons] at hn
    rw [Display.drawCells, Display.hit_drawCells cs _ _ hn.2, List.any_cons, Bool.or_assoc]
    have same : ∀ c ∈ cs, (d.toggle Z W).lit c.1 c.2 = d.lit c.1 c.2 := fun c hc => by
      have : ¬ (Z = c.1 ∧ W = c.2) := fun e => hn.1 (by rw [e.1, e.2]; exact hc)
      rw [Display.lit_toggle]; simp [this]
    congr 2
    rw [Bool.eq_iff_iff, List.any_eq_true, List.any_eq_true]
    exact exists_congr fun c => and_congr_right fun hc => by rw [same c hc]

/-! ## Faults and the range check -/

theorem Fault.halted_of (c : FaultCause) (h : State) : (Fault.of c h).halted = h := by cases c <;> rfl

theorem Fault.cause_of (c : FaultCause) (h : State) : (Fault.of c h).cause = c := by cases c <;> rfl

theorem State.enterFault_eq (c : FaultCause) (op : Word) :
    s.enterFault c op = (s.setFault ⟨c.code, op⟩).setPhase .halted := rfl

end Sys2Proof.Machine
end

