-- ==== Sys2Proof/Laws/Draw.lean ====
section
/-! SUPPORT. The cells a sprite toggles: which they are, and that none occurs twice (spec/43_display.md R167, R169). -/

namespace Sys2Proof.Machine

theorem mem_rowCells {vx vy b : Byte} {r : Nat} {cols : List Nat} {X : Fin 64} {Y : Fin 32} :
    (X, Y) ∈ rowCells vx vy b r cols ↔
      ∃ c ∈ cols, b.getLsbD (7 - c) = true ∧ X.val = (vx.toNat + c) % 64 ∧ Y.val = (vy.toNat + r) % 32 := by
  simp only [rowCells, List.mem_map, List.mem_filter, Prod.mk.injEq, Fin.ext_iff, Fin.val_ofNat, and_assoc]
  exact exists_congr fun c => and_congr_right fun _ => and_congr_right fun _ => by
    constructor <;> rintro ⟨h, h'⟩ <;> exact ⟨h.symm, h'.symm⟩

/-- The cells a sprite toggles are those R167 names. -/
theorem State.mem_spriteCells {s : State} {vx vy : Byte} {n : Nat} {X : Fin 64} {Y : Fin 32} :
    (X, Y) ∈ s.spriteCells vx vy n ↔
      ∃ r < n, ∃ c < 8, (s.mem.read (s.ea + r)).getLsbD (7 - c) = true ∧
        X.val = (vx.toNat + c) % 64 ∧ Y.val = (vy.toNat + r) % 32 := by
  simp [State.spriteCells, mem_rowCells]

theorem rowCells_nodup (vx vy b : Byte) (r : Nat) : (rowCells vx vy b r (List.range 8)).Nodup := by
  refine List.Nodup.map_on ?_ (List.nodup_range.filter _)
  intro c hc d hd h
  have hc' := List.mem_range.1 (List.mem_of_mem_filter hc)
  have hd' := List.mem_range.1 (List.mem_of_mem_filter hd)
  have := congrArg Fin.val (Prod.mk.inj h).1
  simp only [Fin.val_ofNat] at this
  omega

/-- No cell is touched twice: `n <= 32` rows map to distinct `Y`, 8 columns to distinct `X` (R169). -/
theorem State.spriteCells_nodup (s : State) (vx vy : Byte) {n : Nat} (hn : n ≤ 32) :
    (s.spriteCells vx vy n).Nodup := by
  refine List.nodup_flatMap.2 ⟨fun r _ => rowCells_nodup vx vy _ r, ?_⟩
  refine List.Pairwise.imp_of_mem ?_ (List.nodup_range (n := n))
  intro r q hr hq hne
  simp only [Function.onFun]
  rintro ⟨X, Y⟩ h1 h2
  obtain ⟨_, _, _, _, h1⟩ := mem_rowCells.1 h1
  obtain ⟨_, _, _, _, h2⟩ := mem_rowCells.1 h2
  have := List.mem_range.1 hr
  have := List.mem_range.1 hq
  omega

/-- What a draw of at most 32 rows leaves on the display. -/
theorem State.lit_drawSprite (s : State) (vx vy : Byte) {n : Nat} (hn : n ≤ 32) (X : Fin 64) (Y : Fin 32) :
    (s.drawSprite vx vy n).disp.lit X Y = (s.disp.lit X Y ^^ decide ((X, Y) ∈ s.spriteCells vx vy n)) :=
  Display.lit_drawCells X Y _ _ _ (s.spriteCells_nodup vx vy hn)

/-- The flag of a draw of at most 32 rows: some cell of the sprite was lit before it. -/
theorem State.flag_drawSprite (s : State) (vx vy : Byte) {n : Nat} (hn : n ≤ 32) :
    (s.drawSprite vx vy n).getV 15 = flagByte ((s.spriteCells vx vy n).any fun c => s.disp.lit c.1 c.2) := by
  rw [State.drawSprite, Display.hit_drawCells _ _ _ (s.spriteCells_nodup vx vy hn), State.setFlag_eq, State.getV_setV,
    if_pos rfl, Bool.false_or]

/-- A draw changes the display and VF only. -/
theorem State.drawSprite_eq (s : State) (vx vy : Byte) (n : Nat) :
    s.drawSprite vx vy n = (s.setDisp (s.drawSprite vx vy n).disp).setV 15 ((s.drawSprite vx vy n).getV 15) := by
  simp only [State.drawSprite, State.setFlag_eq, State.getV_setV, if_true, State.setV_disp, State.setDisp_disp]

end Sys2Proof.Machine
end

