-- ==== Sys2Proof/Laws/PerInstr.lean ====
section
/-! SUPPORT. A fact about every instruction as syntax, one lemma per constructor: the encoding of a well-formed
instruction is claimed by a row of the opcode table exactly when the instruction is not an unimplemented word. -/

namespace Sys2Proof

/-! ## The three masks as numbers -/

theorem toNat_and_family (op : Word) : (op &&& 0xF000#16).toNat = op.toNat / 4096 * 4096 := by
  have h : op &&& 0xF000#16 = (op >>> 12) <<< 12 := by
    ext i hi
    interval_cases i <;> simp
  have := op.isLt
  rw [h, BitVec.toNat_shiftLeft, BitVec.toNat_ushiftRight, Nat.shiftLeft_eq, Nat.shiftRight_eq_div_pow]
  omega

theorem toNat_and_low (op : Word) (k : Nat) (hk : k ≤ 12) :
    (op &&& (0xF000#16 ||| BitVec.ofNat 16 (2 ^ k - 1))).toNat = op.toNat / 4096 * 4096 + op.toNat % 2 ^ k := by
  have hlt : 2 ^ k ≤ 4096 := Nat.pow_le_pow_right (by omega) hk
  have h1 : (op &&& BitVec.ofNat 16 (2 ^ k - 1)).toNat = op.toNat % 2 ^ k := by
    rw [BitVec.toNat_and, BitVec.toNat_ofNat, Nat.mod_eq_of_lt (by omega), Nat.and_two_pow_sub_one_eq_mod]
  have h2 : op.toNat % 2 ^ k < 2 ^ 12 := Nat.lt_of_lt_of_le (Nat.mod_lt _ (Nat.two_pow_pos k)) hlt
  rw [BitVec.and_or_distrib_left, BitVec.toNat_or, toNat_and_family, h1,
    show op.toNat / 4096 * 4096 = (op.toNat / 4096) <<< 12 by rw [Nat.shiftLeft_eq],
    ← Nat.shiftLeft_add_eq_or_of_lt h2]

theorem toNat_and_nibble (op : Word) : (op &&& 0xF00F#16).toNat = op.toNat / 4096 * 4096 + op.toNat % 16 :=
  toNat_and_low op 4 (by omega)

theorem toNat_and_byte (op : Word) : (op &&& 0xF0FF#16).toNat = op.toNat / 4096 * 4096 + op.toNat % 256 :=
  toNat_and_low op 8 (by omega)

/-! ## The masked words of the formats -/

theorem wordA_and (f : BitVec 4) (a : BitVec 12) : wordA f a &&& 0xF000#16 = BitVec.ofNat 16 (f.toNat * 4096) := by
  apply BitVec.eq_of_toNat_eq
  rw [toNat_and_family, toNat_wordA, BitVec.toNat_ofNat]
  omega

theorem wordXK_and (f : BitVec 4) (x : Reg) (kk : Byte) :
    wordXK f x kk &&& 0xF000#16 = BitVec.ofNat 16 (f.toNat * 4096) := by
  apply BitVec.eq_of_toNat_eq
  rw [toNat_and_family, toNat_wordXK, BitVec.toNat_ofNat]
  omega

theorem wordXYN_and (f : BitVec 4) (x y : Reg) (n : BitVec 4) :
    wordXY f x y n &&& 0xF000#16 = BitVec.ofNat 16 (f.toNat * 4096) := by
  apply BitVec.eq_of_toNat_eq
  rw [toNat_and_family, toNat_wordXY, BitVec.toNat_ofNat]
  omega

theorem wordXY_and (f : BitVec 4) (x y : Reg) (n : BitVec 4) :
    wordXY f x y n &&& 0xF00F#16 = BitVec.ofNat 16 (f.toNat * 4096 + n.toNat) := by
  apply BitVec.eq_of_toNat_eq
  rw [toNat_and_nibble, toNat_wordXY, BitVec.toNat_ofNat]
  omega

theorem wordX_and (x : Reg) (sub : Byte) : wordX x sub &&& 0xF0FF#16 = BitVec.ofNat 16 (61440 + sub.toNat) := by
  apply BitVec.eq_of_toNat_eq
  rw [toNat_and_byte, toNat_wordX, BitVec.toNat_ofNat]
  omega

/-- A row of the table that claims the word makes it implemented. -/
theorem implemented_of_row {op : Word} (r : OpcodeRow) (hr : opcodeTable.contains r = true)
    (h : op &&& r.mask = r.value) : isImplemented op = true :=
  List.any_eq_true.2 ⟨r, List.contains_iff_mem.1 hr, beq_iff_eq.2 h⟩

end Sys2Proof

namespace Sys2Proof.Laws.EncodingRow

open Sys2Proof

/-- The encoding is claimed by a row of the opcode table exactly when the instruction is not an unimplemented word. -/
def Statement (i : Instr) : Prop := i.wf = true → (isImplemented (encode i) = true ↔ ∀ op, i ≠ .unimpl op)

theorem of_row {i : Instr} (h : isImplemented (encode i) = true) (hi : ∀ op, i ≠ .unimpl op) : Statement i :=
  fun _ => ⟨fun _ => hi, fun _ => h⟩

theorem cls : Statement (.cls) :=
  of_row (implemented_of_row ⟨"CLS", 0xFFFF#16, 0x00E0#16⟩ rfl rfl) (by simp)
theorem ret : Statement (.ret) :=
  of_row (implemented_of_row ⟨"RET", 0xFFFF#16, 0x00EE#16⟩ rfl rfl) (by simp)
theorem jp (nnn : BitVec 12) : Statement (.jp nnn) :=
  of_row (implemented_of_row ⟨"JP_nnn", 0xF000#16, 0x1000#16⟩ rfl (wordA_and _ _)) (by simp)
theorem call (nnn : BitVec 12) : Statement (.call nnn) :=
  of_row (implemented_of_row ⟨"CALL_nnn", 0xF000#16, 0x2000#16⟩ rfl (wordA_and _ _)) (by simp)
theorem seImm (x : Reg) (kk : Byte) : Statement (.seImm x kk) :=
  of_row (implemented_of_row ⟨"SE_Vx__kk", 0xF000#16, 0x3000#16⟩ rfl (wordXK_and _ _ _)) (by simp)
theorem sneImm (x : Reg) (kk : Byte) : Statement (.sneImm x kk) :=
  of_row (implemented_of_row ⟨"SNE_Vx__kk", 0xF000#16, 0x4000#16⟩ rfl (wordXK_and _ _ _)) (by simp)
theorem seReg (x y : Reg) : Statement (.seReg x y) :=
  of_row (implemented_of_row ⟨"SE_Vx__Vy", 0xF00F#16, 0x5000#16⟩ rfl (wordXY_and _ _ _ _)) (by simp)
theorem ldImm (x : Reg) (kk : Byte) : Statement (.ldImm x kk) :=
  of_row (implemented_of_row ⟨"LD_Vx__kk", 0xF000#16, 0x6000#16⟩ rfl (wordXK_and _ _ _)) (by simp)
theorem addImm (x : Reg) (kk : Byte) : Statement (.addImm x kk) :=
  of_row (implemented_of_row ⟨"ADD_Vx__kk", 0xF000#16, 0x7000#16⟩ rfl (wordXK_and _ _ _)) (by simp)
theorem ldReg (x y : Reg) : Statement (.ldReg x y) :=
  of_row (implemented_of_row ⟨"LD_Vx__Vy", 0xF00F#16, 0x8000#16⟩ rfl (wordXY_and _ _ _ _)) (by simp)
theorem orReg (x y : Reg) : Statement (.orReg x y) :=
  of_row (implemented_of_row ⟨"OR_Vx__Vy", 0xF00F#16, 0x8001#16⟩ rfl (wordXY_and _ _ _ _)) (by simp)
theorem andReg (x y : Reg) : Statement (.andReg x y) :=
  of_row (implemented_of_row ⟨"AND_Vx__Vy", 0xF00F#16, 0x8002#16⟩ rfl (wordXY_and _ _ _ _)) (by simp)
theorem xorReg (x y : Reg) : Statement (.xorReg x y) :=
  of_row (implemented_of_row ⟨"XOR_Vx__Vy", 0xF00F#16, 0x8003#16⟩ rfl (wordXY_and _ _ _ _)) (by simp)
theorem addReg (x y : Reg) : Statement (.addReg x y) :=
  of_row (implemented_of_row ⟨"ADD_Vx__Vy", 0xF00F#16, 0x8004#16⟩ rfl (wordXY_and _ _ _ _)) (by simp)
theorem subReg (x y : Reg) : Statement (.subReg x y) :=
  of_row (implemented_of_row ⟨"SUB_Vx__Vy", 0xF00F#16, 0x8005#16⟩ rfl (wordXY_and _ _ _ _)) (by simp)
theorem shr (x y : Reg) : Statement (.shr x y) :=
  of_row (implemented_of_row ⟨"SHR_Vx", 0xF00F#16, 0x8006#16⟩ rfl (wordXY_and _ _ _ _)) (by simp)
theorem subnReg (x y : Reg) : Statement (.subnReg x y) :=
  of_row (implemented_of_row ⟨"SUBN_Vx__Vy", 0xF00F#16, 0x8007#16⟩ rfl (wordXY_and _ _ _ _)) (by simp)
theorem shl (x y : Reg) : Statement (.shl x y) :=
  of_row (implemented_of_row ⟨"SHL_Vx", 0xF00F#16, 0x800E#16⟩ rfl (wordXY_and _ _ _ _)) (by simp)
theorem sneReg (x y : Reg) : Statement (.sneReg x y) :=
  of_row (implemented_of_row ⟨"SNE_Vx__Vy", 0xF00F#16, 0x9000#16⟩ rfl (wordXY_and _ _ _ _)) (by simp)
theorem ldI (nnn : BitVec 12) : Statement (.ldI nnn) :=
  of_row (implemented_of_row ⟨"LD_I__nnn", 0xF000#16, 0xA000#16⟩ rfl (wordA_and _ _)) (by simp)
theorem jpV0 (nnn : BitVec 12) : Statement (.jpV0 nnn) :=
  of_row (implemented_of_row ⟨"JP_V0__nnn", 0xF000#16, 0xB000#16⟩ rfl (wordA_and _ _)) (by simp)
theorem drw (x y : Reg) (n : BitVec 4) : Statement (.drw x y n) :=
  of_row (implemented_of_row ⟨"DRW_Vx__Vy__n", 0xF000#16, 0xD000#16⟩ rfl (wordXYN_and _ _ _ _)) (by simp)
theorem ldVxDT (x : Reg) : Statement (.ldVxDT x) :=
  of_row (implemented_of_row ⟨"LD_Vx__DT", 0xF0FF#16, 0xF007#16⟩ rfl (wordX_and _ _)) (by simp)
theorem ldDTVx (x : Reg) : Statement (.ldDTVx x) :=
  of_row (implemented_of_row ⟨"LD_DT__Vx", 0xF0FF#16, 0xF015#16⟩ rfl (wordX_and _ _)) (by simp)
theorem ldSTVx (x : Reg) : Statement (.ldSTVx x) :=
  of_row (implemented_of_row ⟨"LD_ST__Vx", 0xF0FF#16, 0xF018#16⟩ rfl (wordX_and _ _)) (by simp)
theorem addI (x : Reg) : Statement (.addI x) :=
  of_row (implemented_of_row ⟨"ADD_I__Vx", 0xF0FF#16, 0xF01E#16⟩ rfl (wordX_and _ _)) (by simp)
theorem ldB (x : Reg) : Statement (.ldB x) :=
  of_row (implemented_of_row ⟨"LD_B__Vx", 0xF0FF#16, 0xF033#16⟩ rfl (wordX_and _ _)) (by simp)
theorem ldMemVx (x : Reg) : Statement (.ldMemVx x) :=
  of_row (implemented_of_row ⟨"LD__I___Vx", 0xF0FF#16, 0xF055#16⟩ rfl (wordX_and _ _)) (by simp)
theorem ldVxMem (x : Reg) : Statement (.ldVxMem x) :=
  of_row (implemented_of_row ⟨"LD_Vx___I", 0xF0FF#16, 0xF065#16⟩ rfl (wordX_and _ _)) (by simp)
theorem unimpl (op : Word) : Statement (.unimpl op) := fun h =>
  ⟨fun h' => absurd h' (by simpa [Instr.wf, encode] using h), fun h' => absurd rfl (h' op)⟩

end Sys2Proof.Laws.EncodingRow
end

