-- ==== Sys2Proof/Laws/Step.lean ====
section
/-! SUPPORT. What the control operations, `exec`, `step` and the transactions can do, said once each. -/

namespace Sys2Proof.Machine

open Host (Outcome)

/-! ## Shared control -/

theorem raise_eq (c : FaultCause) (op : Word) (s : State) : raise c op s = .fault (Fault.of c (s.enterFault c op)) := rfl

theorem guardRange_of_le {n : Nat} {op : Word} {s t : State} (h : s.ea + n ≤ 4096) : guardRange n op s t = .next t := by
  rw [guardRange, if_pos (inRange_iff.2 h)]

theorem guardRange_of_gt {n : Nat} {op : Word} {s t : State} (h : 4096 < s.ea + n) :
    guardRange n op s t = .fault (.invalidAddressData (s.enterFault .invalidAddressData op)) := by
  rw [guardRange, if_neg (fun h' => absurd (inRange_iff.1 h') (by omega))]; rfl

/-- An instruction behind the range check that completes: its range lies in memory, and it did its work. -/
theorem guardRange_next {n : Nat} {op : Word} {s t u : State} (h : guardRange n op s t = .next u) :
    s.ea + n ≤ 4096 ∧ u = t := by
  rcases Nat.lt_or_ge 4096 (s.ea + n) with hg | hg
  · rw [guardRange_of_gt hg] at h; cases h
  · rw [guardRange_of_le hg] at h; cases h; exact ⟨hg, rfl⟩

theorem skipIf_eq (c : Bool) (s : State) : skipIf c s = .next (s.setPC (if c then s.pc + 2 else s.pc)) := by
  cases c <;> rfl

theorem execRet_of_none {s : State} (h : s.sp = none) :
    execRet s = .fault (.stackUnderflow (s.enterFault .stackUnderflow 0x00EE#16)) := by
  simp [execRet, h, raise, Fault.of, encode]

theorem execRet_of_some {s : State} {k : Fin 16} (h : s.sp = some k) :
    execRet s = .next ((s.setPC s.stack[k]).setSP (spPop k)) := by
  simp [execRet, h]

theorem execCall_of_none {nnn : BitVec 12} {s : State} (h : spPush s.sp = none) :
    execCall nnn s = .fault (.stackOverflow (s.enterFault .stackOverflow (encode (.call nnn)))) := by
  simp [execCall, h, raise, Fault.of]

theorem execCall_of_some {nnn : BitVec 12} {s : State} {k : Fin 16} (h : spPush s.sp = some k) :
    execCall nnn s = .next (((s.setSP (some k)).setEntry k s.pc).setPC (zextAddr nnn)) := by
  simp [execCall, h]

theorem execDrw_of_good {x y : Reg} {n : BitVec 4} {s : State} (h : n = 0 ∨ s.ea + n.toNat ≤ 4096) :
    execDrw x y n s = .next (s.drawSprite (s.getV x) (s.getV y) n.toNat) := by
  unfold execDrw
  split
  · subst n; rfl
  · exact guardRange_of_le (h.resolve_left ‹_›)

theorem execDrw_of_bad {x y : Reg} {n : BitVec 4} {s : State} (h : n ≠ 0) (h' : 4096 < s.ea + n.toNat) :
    execDrw x y n s =
      .fault (.invalidAddressData (s.enterFault .invalidAddressData (encode (.drw x y n)))) := by
  rw [execDrw, if_neg h, guardRange_of_gt h']

/-- A draw that completes: its range lies in memory, and it drew. -/
theorem execDrw_next {x y : Reg} {n : BitVec 4} {s t : State} (h : execDrw x y n s = .next t) :
    (n = 0 ∨ s.ea + n.toNat ≤ 4096) ∧ t = s.drawSprite (s.getV x) (s.getV y) n.toNat := by
  by_cases hg : n = 0 ∨ s.ea + n.toNat ≤ 4096
  · rw [execDrw_of_good hg] at h; cases h; exact ⟨hg, rfl⟩
  · rw [not_or, Nat.not_le] at hg
    rw [execDrw_of_bad hg.1 hg.2] at h; cases h

/-- A call that completes: an entry was free, and the advanced `PC` was pushed. -/
theorem execCall_next {nnn : BitVec 12} {s t : State} (h : execCall nnn s = .next t) :
    ∃ k, spPush s.sp = some k ∧ t = ((s.setSP (some k)).setEntry k s.pc).setPC (zextAddr nnn) := by
  cases hp : spPush s.sp with
  | none => rw [execCall_of_none hp] at h; cases h
  | some k => rw [execCall_of_some hp] at h; cases h; exact ⟨k, rfl, rfl⟩

/-- A return that completes: the stack held an entry, and it was popped. -/
theorem execRet_next {s t : State} (h : execRet s = .next t) :
    ∃ k, s.sp = some k ∧ t = (s.setPC s.stack[k]).setSP (spPop k) := by
  cases hp : s.sp with
  | none => rw [execRet_of_none hp] at h; cases h
  | some k => rw [execRet_of_some hp] at h; cases h; exact ⟨k, rfl, rfl⟩

/-- Every fault of the execute part is raised in one way: no load and no fetch cause, the word of the instruction, and
nothing else of the state touched. -/
theorem exec_fault {i : Instr} {s : State} {f : Fault} (h : exec i s = .fault f) :
    ∃ c, c ≠ .outOfBounds ∧ c ≠ .invalidAddressFetch ∧ f = Fault.of c (s.enterFault c (encode i)) := by
  have guarded : ∀ n t, guardRange n (encode i) s t = .fault f →
      ∃ c, c ≠ .outOfBounds ∧ c ≠ .invalidAddressFetch ∧ f = Fault.of c (s.enterFault c (encode i)) := by
    intro n t hg
    rw [guardRange] at hg
    split at hg <;> cases hg
    exact ⟨.invalidAddressData, by simp, by simp, rfl⟩
  cases i
  case ret =>
    simp only [exec, execRet] at h
    split at h <;> cases h
    exact ⟨.stackUnderflow, by simp, by simp, rfl⟩
  case call nnn =>
    simp only [exec, execCall] at h
    split at h <;> cases h
    exact ⟨.stackOverflow, by simp, by simp, rfl⟩
  case drw x y n =>
    simp only [exec, execDrw] at h
    split at h
    · cases h
    · exact guarded _ _ h
  case ldB x => exact guarded _ _ h
  case ldMemVx x => exact guarded _ _ h
  case ldVxMem x => exact guarded _ _ h
  all_goals simp [exec, execCls, execJp, execSeImm, execSneImm, execSeReg, execSneReg, skipIf_eq, execLdImm, execAddImm,
    execLdReg, execOrReg, execAndReg, execXorReg, execAddReg, execSubReg, execShr, execSubnReg, execShl, execLdI,
    execJpV0, execLdVxDT, execLdDTVx, execLdSTVx, execAddI, execUnimpl] at h

/-! ## Fetch and step -/

theorem State.fetch_of_le {s : State} (h : s.pc.toNat + 2 ≤ 4096) : s.fetch = some (s.mem.readWord s.pc.toNat) := by
  rw [State.fetch, if_pos (inRange_iff.2 h)]

theorem State.fetch_of_gt {s : State} (h : 4096 < s.pc.toNat + 2) : s.fetch = none := by
  rw [State.fetch, if_neg (fun h' => absurd (inRange_iff.1 h') (by omega))]

theorem step_halted {s : State} (h : s.phase = .halted) : step s = .next s := by simp [step, h]

theorem step_fetchFault {s : State} (h : s.phase ≠ .halted) (hf : s.fetch = none) :
    step s = .fault (.invalidAddressFetch (s.beginRun.enterFault .invalidAddressFetch 0)) := by
  have hf' : s.beginRun.fetch = none := hf
  unfold step
  split
  · exact absurd ‹_› h
  all_goals rw [hf']; rfl

theorem step_exec {s : State} {op : Word} (h : s.phase ≠ .halted) (hf : s.fetch = some op) :
    step s = exec (decode op) s.beginRun.advance := by
  have hf' : s.beginRun.fetch = some op := hf
  unfold step
  split
  · exact absurd ‹_› h
  all_goals rw [hf']

/-- Everything a step can do: nothing in `HALTED`; the fetch fault; or one instruction. -/
theorem step_cases (s : State) :
    (s.phase = .halted ∧ step s = .next s) ∨
    (s.phase ≠ .halted ∧ 4096 < s.pc.toNat + 2 ∧
      step s = .fault (.invalidAddressFetch (s.beginRun.enterFault .invalidAddressFetch 0))) ∨
    (s.phase ≠ .halted ∧ s.pc.toNat + 2 ≤ 4096 ∧
      step s = exec (decode (s.mem.readWord s.pc.toNat)) s.beginRun.advance) := by
  by_cases h : s.phase = .halted
  · exact .inl ⟨h, step_halted h⟩
  · rcases Nat.lt_or_ge 4096 (s.pc.toNat + 2) with h' | h'
    · exact .inr (.inl ⟨h, h', step_fetchFault h (State.fetch_of_gt h')⟩)
    · exact .inr (.inr ⟨h, h', step_exec h (State.fetch_of_le h')⟩)

/-! ## Tick and load -/

theorem tick_of_alive {s : State} (h : s.phase ≠ .halted) :
    tick s = (s.setDT (countDown s.dt)).setST (countDown s.st) := by
  unfold tick; split
  · exact absurd ‹_› h
  all_goals rfl

theorem tick_halted {s : State} (h : s.phase = .halted) : tick s = s := by simp [tick, h]

/-- A timer counts down by one and stays at 0 (R215). -/
theorem toNat_countDown : ∀ b : Byte, (countDown b).toNat = b.toNat - 1 := by decide

/-- Everything a load can do: refused without effect; `OutOfBounds` with nothing copied; or the copy. -/
theorem load_cases (bs : List Byte) (off lim : Nat) (s : State) :
    (s.phase ≠ .load ∧ load bs off lim s = .next s) ∨
    (s.phase = .load ∧ min lim 4096 < off + bs.length ∧
      load bs off lim s = .fault (.outOfBounds (s.enterFault .outOfBounds 0))) ∨
    (s.phase = .load ∧ off + bs.length ≤ min lim 4096 ∧
      load bs off lim s = .next (s.setMem (s.mem.writeBytes off bs))) := by
  unfold load
  split
  · exact .inl ⟨by simp_all, rfl⟩
  · exact .inl ⟨by simp_all, rfl⟩
  · split
    · exact .inr (.inl ⟨‹_›, ‹_›, rfl⟩)
    · exact .inr (.inr ⟨‹_›, Nat.le_of_not_lt ‹_›, rfl⟩)

end Sys2Proof.Machine
end

