-- ==== Sys2Proof/Tests/Slice0.lean ====
section
/-! SUPPORT. Tests of single steps with results taken from spec/95_test_vectors.md (the vector is named in each
comment), decoding of words written out from the patterns of spec/30_encoding.md R96, the well-formedness check on
ill-formed terms, and for every obligation with hypotheses a state that meets them. -/

namespace Sys2Proof.Tests

open Sys2Proof.Machine Sys2Proof.Claims

/-! ## Well-formedness -/

theorem test_wf_refuses_claimed_word : (Instr.unimpl 0x00E0#16).wf = false := by decide
theorem test_wf_refuses_claimed_alu_word : (Instr.unimpl 0x8124#16).wf = false := by decide
theorem test_wf_accepts_unclaimed_word : (Instr.unimpl 0x8128#16).wf = true := by decide
theorem test_decode_rejects_short_input :
    decodeBytes [] = .error .tooShort ∧ decodeBytes [0x60#8] = .error .tooShort := ⟨rfl, rfl⟩
theorem test_decode_table_word_too_long : decodeTableWord 24 0x0000E0 = none := by decide
theorem test_config_refuses_bad_parameters :
    { Config.default 600 with physW := 100 }.wf = false ∧ { Config.default 600 with physH := 0 }.wf = false ∧
    { Config.default 600 with colorOn := 0 }.wf = false ∧ { Config.default 600 with fontData := [0] }.wf = false ∧
    (Config.default 0).wf = false ∧ (Config.default 600).wf = true := by decide

/-! ## Decoding: for each pattern of R96 one word, its fields written out -/

theorem test_decode_cls : decodeTableWord 16 0x00E0 = some .cls := by decide
theorem test_decode_ret : decodeTableWord 16 0x00EE = some .ret := by decide
theorem test_decode_jp : decodeTableWord 16 0x1ABC = some (.jp 0xABC) := by decide
theorem test_decode_call : decodeTableWord 16 0x2ABC = some (.call 0xABC) := by decide
theorem test_decode_se_imm : decodeTableWord 16 0x3A42 = some (.seImm 10 0x42) := by decide
theorem test_decode_sne_imm : decodeTableWord 16 0x4A42 = some (.sneImm 10 0x42) := by decide
theorem test_decode_se_reg : decodeTableWord 16 0x5AB0 = some (.seReg 10 11) := by decide
theorem test_decode_ld_imm : decodeTableWord 16 0x6A2F = some (.ldImm 10 0x2F) := by decide
theorem test_decode_add_imm : decodeTableWord 16 0x7A01 = some (.addImm 10 0x01) := by decide
theorem test_decode_ld_reg : decodeTableWord 16 0x8120 = some (.ldReg 1 2) := by decide
theorem test_decode_or : decodeTableWord 16 0x8121 = some (.orReg 1 2) := by decide
theorem test_decode_and : decodeTableWord 16 0x8122 = some (.andReg 1 2) := by decide
theorem test_decode_xor : decodeTableWord 16 0x8123 = some (.xorReg 1 2) := by decide
theorem test_decode_add_reg : decodeTableWord 16 0x8124 = some (.addReg 1 2) := by decide
theorem test_decode_sub : decodeTableWord 16 0x8125 = some (.subReg 1 2) := by decide
theorem test_decode_shr : decodeTableWord 16 0x8126 = some (.shr 1 2) := by decide
theorem test_decode_subn : decodeTableWord 16 0x8127 = some (.subnReg 1 2) := by decide
theorem test_decode_shl : decodeTableWord 16 0x812E = some (.shl 1 2) := by decide
theorem test_decode_sne_reg : decodeTableWord 16 0x9AB0 = some (.sneReg 10 11) := by decide
theorem test_decode_ld_i : decodeTableWord 16 0xA300 = some (.ldI 0x300) := by decide
theorem test_decode_jp_v0 : decodeTableWord 16 0xB3FF = some (.jpV0 0x3FF) := by decide
theorem test_decode_drw : decodeTableWord 16 0xD12F = some (.drw 1 2 15) := by decide
theorem test_decode_ld_vx_dt : decodeTableWord 16 0xF507 = some (.ldVxDT 5) := by decide
theorem test_decode_ld_dt_vx : decodeTableWord 16 0xF315 = some (.ldDTVx 3) := by decide
theorem test_decode_ld_st_vx : decodeTableWord 16 0xF318 = some (.ldSTVx 3) := by decide
theorem test_decode_add_i : decodeTableWord 16 0xF21E = some (.addI 2) := by decide
theorem test_decode_ld_b : decodeTableWord 16 0xF333 = some (.ldB 3) := by decide
theorem test_decode_ld_mem_vx : decodeTableWord 16 0xF255 = some (.ldMemVx 2) := by decide
theorem test_decode_ld_vx_mem : decodeTableWord 16 0xF265 = some (.ldVxMem 2) := by decide

/-- One word of each gap of the table (vectors WV1 to WV9). -/
theorem test_decode_unimplemented :
    [0x0000#16, 0x0123#16, 0x00E1#16, 0x5AB1#16, 0x8128#16, 0x812F#16, 0x9AB1#16, 0xC0FF#16, 0xE09E#16, 0xE0A1#16,
     0xF00A#16, 0xF029#16, 0xF0FF#16].all (fun op => decode op == .unimpl op) = true := by decide

/-! ## One step -/

/-- A running core with the word at 0x200, everything else as after reset but for `before` (the convention of
95_test_vectors.md). -/
def start (op : Word) (before : State → State) : State :=
  before ((State.reset.setMem (State.reset.mem.writeBytes 0x200 [hiByte op, loByte op])).setPhase .run)

/-- Bytes placed in memory before a step. -/
def put (a : Nat) (bs : List Byte) (s : State) : State := s.setMem (s.mem.writeBytes a bs)

/-- The outcome is a next state that passes the check. -/
def nextIs (check : State → Bool) : Host.Outcome State Fault Refusal → Bool
  | .next t    => check t
  | .fault _   => false
  | .refused _ => false

/-- The outcome is a fault whose halted state passes the check. -/
def haltIs (check : State → Bool) : Host.Outcome State Fault Refusal → Bool
  | .next _    => false
  | .fault f   => f.halted.phase == .halted && check f.halted
  | .refused _ => false

/-- The step on a word ends in a next state that passes the check. -/
def runs (op : Word) (before : State → State) (check : State → Bool) : Bool := nextIs check (step (start op before))

/-- The step on a word ends in a fault whose halted state passes the check. -/
def halts (op : Word) (before : State → State) (check : State → Bool) : Bool := haltIs check (step (start op before))

-- CLS: DV16. RET: CV8, CV10. JP: CV1. CALL: CV6, CV7.
theorem test_cls : runs 0x00E0 (fun s => s.setDisp (Vector.replicate 32 0xF0))
    (fun t => t.disp == Vector.replicate 32 0 && t.getV 15 == 0 && t.pc == 0x202) = true := by decide
theorem test_ret_pops : runs 0x00EE (fun s => (s.setSP (some 0)).setEntry 0 0x302)
    (fun t => t.pc == 0x302 && t.spBits == 0x1F) = true := by decide
theorem test_ret_underflow : halts 0x00EE id
    (fun t => t.pc == 0x202 && t.sp == none && t.fault == ⟨5, 0x00EE⟩) = true := by decide
theorem test_jp : runs 0x1ABC id (fun t => t.pc == 0xABC) = true := by decide
theorem test_call_sixteenth : runs 0x2ABC (fun s => s.setSP (some 14))
    (fun t => t.pc == 0xABC && t.sp == some 15 && t.stack[15] == 0x202) = true := by decide
theorem test_call_overflow : halts 0x2ABC (fun s => s.setSP (some 15))
    (fun t => t.pc == 0x202 && t.sp == some 15 && t.stack[15] == 0 && t.fault == ⟨4, 0x2ABC⟩) = true := by decide

-- Skips: CV11, CV12, CV14, CV15, CV16, CV17, CV20, CV21. JP V0: CV25, CV28.
theorem test_se_imm : runs 0x3A42 (·.setV 10 0x42) (·.pc == 0x204) = true ∧
    runs 0x3A42 (·.setV 10 0x43) (·.pc == 0x202) = true := by decide
theorem test_sne_imm : runs 0x4A42 (·.setV 10 0x42) (·.pc == 0x202) = true ∧
    runs 0x4A42 (·.setV 10 0x43) (·.pc == 0x204) = true := by decide
theorem test_se_reg : runs 0x5AB0 (fun s => (s.setV 10 9).setV 11 9) (·.pc == 0x204) = true ∧
    runs 0x5AB0 (fun s => (s.setV 10 9).setV 11 8) (·.pc == 0x202) = true := by decide
theorem test_sne_reg : runs 0x9AB0 (fun s => (s.setV 10 9).setV 11 9) (·.pc == 0x202) = true ∧
    runs 0x9AB0 (fun s => (s.setV 10 9).setV 11 8) (·.pc == 0x204) = true := by decide
theorem test_jp_v0 : runs 0xBFFF (·.setV 0 0xFF) (·.pc == 0x10FE) = true ∧
    runs 0xB300 (·.setV 3 0x55) (·.pc == 0x300) = true := by decide

-- Load, arithmetic, logic: AV1, AV3, AV6, AV8, AV10, AV11, AV12.
theorem test_ld_imm : runs 0x6A2F id (fun t => t.getV 10 == 0x2F && t.pc == 0x202) = true := by decide
theorem test_add_imm_wraps : runs 0x7A01 (·.setV 10 0xFF) (fun t => t.getV 10 == 0 && t.getV 15 == 0) = true := by decide
theorem test_add_imm_to_vf : runs 0x7F01 (·.setV 15 0xFF) (fun t => t.getV 15 == 0) = true := by decide
theorem test_ld_reg : runs 0x8FA0 (fun s => (s.setV 10 7).setV 15 1) (fun t => t.getV 15 == 7) = true := by decide
theorem test_or : runs 0x8121 (fun s => ((s.setV 1 0xF0).setV 2 0x0F).setV 15 1)
    (fun t => t.getV 1 == 0xFF && t.getV 2 == 0x0F && t.getV 15 == 1) = true := by decide
theorem test_and : runs 0x8122 (fun s => ((s.setV 1 0xF3).setV 2 0x3F).setV 15 1)
    (fun t => t.getV 1 == 0x33 && t.getV 15 == 1) = true := by decide
theorem test_xor : runs 0x8123 (fun s => ((s.setV 1 0xFF).setV 2 0x0F).setV 15 1)
    (fun t => t.getV 1 == 0xF0 && t.getV 15 == 1) = true := by decide
-- AV15, AV17; AV21, AV25; AV33, AV37; AV28, AV31; AV40, AV44.
theorem test_add_reg_clears_flag : runs 0x8124 (fun s => ((s.setV 1 0x80).setV 2 0x7F).setV 15 1)
    (fun t => t.getV 1 == 0xFF && t.getV 15 == 0) = true := by decide
theorem test_add_reg_carry_wins : runs 0x8F24 (fun s => (s.setV 15 0xFF).setV 2 2) (fun t => t.getV 15 == 1) = true := by
  decide
theorem test_sub_equal : runs 0x8125 (fun s => ((s.setV 1 7).setV 2 7).setV 15 1)
    (fun t => t.getV 1 == 0 && t.getV 15 == 0) = true := by decide
theorem test_sub_old_vf : runs 0x81F5 (fun s => (s.setV 1 5).setV 15 1)
    (fun t => t.getV 1 == 4 && t.getV 15 == 1) = true := by decide
theorem test_shr_ignores_y : runs 0x8126 (fun s => ((s.setV 1 4).setV 2 0xFF).setV 15 1)
    (fun t => t.getV 1 == 2 && t.getV 2 == 0xFF && t.getV 15 == 0) = true := by decide
theorem test_shr_value_wins : runs 0x8F06 (·.setV 15 5) (fun t => t.getV 15 == 2) = true := by decide
theorem test_subn_borrows : runs 0x8127 (fun s => (s.setV 1 5).setV 2 3)
    (fun t => t.getV 1 == 0xFE && t.getV 15 == 0) = true := by decide
theorem test_subn_old_vf : runs 0x81F7 (·.setV 15 1) (fun t => t.getV 1 == 1 && t.getV 15 == 1) = true := by decide
theorem test_shl_ignores_y : runs 0x812E (fun s => ((s.setV 1 0x40).setV 2 0xFF).setV 15 1)
    (fun t => t.getV 1 == 0x80 && t.getV 2 == 0xFF && t.getV 15 == 0) = true := by decide
theorem test_shl_value_wins : runs 0x8F0E (·.setV 15 0x81) (fun t => t.getV 15 == 2) = true := by decide

-- Index and memory: MV2, MV3, MV4, T6, MV12, MV15, MV17, MV20, MV22.
theorem test_ld_i : runs 0xAFFF id (·.i == 0xFFF) = true := by decide
theorem test_add_i_no_flag : runs 0xF21E (fun s => ((s.setI 0xFFE).setV 2 4).setV 15 7)
    (fun t => t.i == 0x1002 && t.getV 15 == 7) = true := by decide
theorem test_add_i_wraps : runs 0xF21E (fun s => (s.setI 0xFFFF).setV 2 2) (·.i == 1) = true := by decide
theorem test_ld_b : runs 0xF333 (fun s => (s.setI 0x300).setV 3 234) (fun t =>
    t.mem.read 0x300 == 2 && t.mem.read 0x301 == 3 && t.mem.read 0x302 == 4 && t.i == 0x300) = true := by decide
theorem test_ld_b_fault : halts 0xF333 (fun s => (s.setI 0xFFE).setV 3 0xC7) (fun t =>
    t.mem.read 0xFFE == 0 && t.mem.read 0xFFF == 0 && t.fault == ⟨3, 0xF333⟩ && t.pc == 0x202) = true := by decide
theorem test_ld_mem_vx : runs 0xF255 (fun s => ((((s.setI 0x400).setV 0 0x11).setV 1 0x22).setV 2 0x33).setV 3 0x44)
    (fun t => t.mem.read 0x400 == 0x11 && t.mem.read 0x401 == 0x22 && t.mem.read 0x402 == 0x33 &&
      t.mem.read 0x403 == 0 && t.i == 0x400) = true := by decide
theorem test_ld_mem_vx_fault : halts 0xF155 (fun s => ((s.setI 0xFFF).setV 0 0x11).setV 1 0x22)
    (fun t => t.mem.read 0xFFF == 0 && t.fault == ⟨3, 0xF155⟩) = true := by decide
theorem test_ld_vx_mem : runs 0xF265 (fun s => ((put 0x300 [2, 3, 4, 5] s).setI 0x300).setV 3 0x99)
    (fun t => t.getV 0 == 2 && t.getV 1 == 3 && t.getV 2 == 4 && t.getV 3 == 0x99 && t.i == 0x300) = true := by decide
theorem test_ld_vx_mem_fault : halts 0xF165 (fun s => (((put 0xFFF [0x7E] s).setI 0xFFF).setV 0 1).setV 1 2)
    (fun t => t.getV 0 == 1 && t.getV 1 == 2 && t.fault == ⟨3, 0xF165⟩) = true := by decide

-- Draw: T8 (column 0 at x = 63, the others wrap), DV10.
theorem test_drw_wraps : runs 0xD011 (fun s => ((put 0x300 [0xFF] s).setI 0x300).setV 0 63)
    (fun t => t.disp == (Vector.replicate 32 0).set 0 0x800000000000007F && t.getV 15 == 0) = true := by decide
theorem test_drw_fault : halts 0xD012 (fun s => ((put 0xFFF [0x80] s).setI 0xFFF).setV 15 7)
    (fun t => t.disp == Vector.replicate 32 0 && t.getV 15 == 7 && t.fault == ⟨3, 0xD012⟩ && t.pc == 0x202) = true := by
  decide

-- Timers: TV9, TV1, TV3. Unimplemented: WV4, CV19.
theorem test_ld_vx_dt : runs 0xF507 (·.setDT 0x3C) (fun t => t.getV 5 == 0x3C && t.dt == 0x3C) = true := by decide
theorem test_ld_dt_vx : runs 0xF015 (·.setV 0 3) (fun t => t.dt == 3 && t.st == 0) = true := by decide
theorem test_ld_st_vx : runs 0xF018 (fun s => (s.setV 0 3).setDT 2) (fun t => t.dt == 2 && t.st == 3) = true := by decide
theorem test_unimpl : runs 0xC0FF id (fun t => t.getV 0 == 0 && t.pc == 0x202) = true ∧
    stepEvent (start 0xC0FF id) = some (.unimpl 0xC0FF) := by decide
theorem test_unimpl_is_no_skip : runs 0x5AB1 (fun s => (s.setV 10 9).setV 11 9) (·.pc == 0x202) = true ∧
    stepEvent (start 0x5AB1 id) = some (.unimpl 0x5AB1) := by decide

-- Fetch: FV1, FV2, FV5, FV6, FV7.
theorem test_fetch_last : nextIs (fun t => t.getV 10 == 0x55 && t.pc == 0x1000)
    (step ((put 0xFFE [0x6A, 0x55] (start 0 id)).setPC 0xFFE)) = true := by decide
theorem test_fetch_fault : haltIs (fun t => t.pc == 0xFFF && t.fault == ⟨2, 0⟩)
    (step ((start 0 id).setPC 0xFFF)) = true := by decide
theorem test_fetch_odd : nextIs (fun t => t.getV 11 == 0x77 && t.pc == 0x203)
    (step ((put 0x201 [0x6B, 0x77] (start 0 id)).setPC 0x201)) = true := by decide
theorem test_first_step : nextIs (fun t => t.phase == .run && t.getV 0 == 1 && t.pc == 0x202)
    (step (State.reset.withFetchWord 16 0x6001)) = true := by decide

/-! ## Transactions -/

-- Ticks: TV2, TV6, TV11.
theorem test_tick : (tick ((start 0 id).setDT 3)).dt = 2 ∧ (tick ((start 0 id).setDT 3)).st = 0 := by decide
theorem test_tick_halted : (tick (((start 0 id).setDT 5).setPhase .halted)).dt = 5 := by decide
-- Loads (R70, R71, R72): the last byte before the limit, one byte past it, refused in RUN (LV6).
theorem test_load_to_limit : nextIs (fun t => t.mem.read 0x1FF == 0xCD && t.phase == .load)
    (load [0xCD, 0xCD] 0x1FE 0x200 State.reset) = true := by decide
theorem test_load_past_limit : haltIs (fun t => t.mem == [] && t.fault == ⟨1, 0⟩)
    (load [0xCD, 0xCD] 0x1FF 0x200 State.reset) = true := by decide
theorem test_load_refused_in_run : nextIs (fun t => t.mem.read 0x300 == 0 && t.phase == .run)
    (load [0xCD] 0x300 4096 (start 0 id)) = true := by decide
-- LV2, at the first and last byte of the font.
theorem test_load_font : nextIs (fun t => t.mem.read 0x050 == 0xF0 && t.mem.read 0x055 == 0x20 &&
    t.mem.read 0x09F == 0x80 && t.mem.read 0x0A0 == 0)
    (loadFont (Config.default 600) defaultFont State.reset) = true := by decide
-- The physical buffer check after DV16: with 128 by 64 pixels the cell (0, 0) is pixels 0, 1, 128 and 129.
theorem test_pixels :
    [0, 1, 128, 129, 2, 130, 256].map (pixelAt { Config.default 600 with physW := 128, physH := 64 }
      (Display.clear.toggle 0 0)) = [0xFFFFFF, 0xFFFFFF, 0xFFFFFF, 0xFFFFFF, 0, 0, 0] := by decide

-- Pins (R45): in RUN a load request does nothing beside a step; in LOAD a byte is written, and a tick on the same edge
-- finds the timers at 0; `load_fail` latches code 1.
theorem test_pins_step_ignores_load :
    (clockEdge ⟨false, true, 0x300, 0xAB, false, true, false, 0, 0⟩ (start 0x6001 id)).any (fun r =>
      r.1.getV 0 == 1 && r.1.mem.read 0x300 == 0 && r.2.unimpl == none) = true := by decide
theorem test_pins_load : (clockEdge ⟨false, true, 0xFFF, 0xAB, false, false, true, 0, 0⟩ State.reset).any (fun r =>
    r.1.mem.read 0xFFF == 0xAB && r.1.phase == .load && r.1.dt == 0) = true := by decide
theorem test_pins_load_fail : (clockEdge ⟨false, false, 0, 0, true, false, true, 0, 0⟩ State.reset).any (fun r =>
    r.1.mem == [] && r.2.halted && r.2.faultCode == 1 && r.2.faultOp == 0) = true := by decide
-- R201: PC and I are readable in the halted state (MV12).
theorem test_observe_halted : haltIs (fun t => (observe t).haltedAt == some (0x202, 0xFFE))
    (step (start 0xF333 (·.setI 0xFFE))) = true := by decide
-- TV3, TV4: the host sees ST as the step wrote it and the tick counted it down.
theorem test_observe_st : nextIs (fun t => (observe t).st == 3 && (observe (tick t)).st == 2)
    (step (start 0xF018 (·.setV 0 3))) = true := by decide
theorem test_observe_running : (observe (start 0x6001 id)).haltedAt = none := by decide

/-! ## Witnesses: states and operands that meet the hypotheses of the obligations -/

theorem next_of_nextIs {o : Host.Outcome State Fault Refusal} (h : nextIs (fun _ => true) o = true) :
    ∃ t, o = .next t := by
  cases o with
  | next t => exact ⟨t, rfl⟩
  | fault f => cases h
  | refused r => cases h

theorem fault_of_haltIs {o : Host.Outcome State Fault Refusal} (h : haltIs (fun _ => true) o = true) :
    ∃ f, o = .fault f := by
  cases o with
  | next t => cases h
  | fault f => exact ⟨f, rfl⟩
  | refused r => cases h

/-- A state with one stack entry in use and no fault is inside the invariant when its parts are. -/
theorem inv_of_one_entry {s : State} (hm : s.mem.wf = true) (hp : s.pc.toNat ≤ 0x10FE) (hs : s.sp = some 0)
    (he : 2 ≤ s.stack[(0 : Fin 16)].toNat ∧ s.stack[(0 : Fin 16)].toNat ≤ 0x1000) (hr : s.phase ≠ .halted)
    (hf : s.fault = ⟨0, 0⟩) : s.Inv := by
  refine ⟨hm, hp, ?_, fun _ => hf, fun h => absurd h hr⟩
  rintro k ⟨top, ht, hk⟩
  rw [hs] at ht
  cases ht
  have : k = 0 := Fin.ext (Nat.le_zero.1 hk)
  rw [this]; exact he

/-- A running state at the edge of the invariant: the largest stacked return address. -/
def edge (op : Word) : State := start op fun s => (s.setSP (some 0)).setEntry 0 0x1000

theorem inv_edge_ret : (edge 0x00EE).Inv :=
  inv_of_one_entry (by decide) (by decide) (by decide) (by decide) (by decide) (by decide)

/-- `I` one past the last good address of a register block. -/
def pastEnd (op : Word) : State := start op fun s => (s.setI 0xFFF).setSP (some 0) |>.setEntry 0 2

theorem inv_past_end : (pastEnd 0xF155).Inv :=
  inv_of_one_entry (by decide) (by decide) (by decide) (by decide) (by decide) (by decide)

theorem witness_StepKeepsMachineInvariant : ∃ s t, State.Inv s ∧ step s = .next t :=
  ⟨edge 0x00EE, (next_of_nextIs (by decide)).imp fun _ h => ⟨inv_edge_ret, h⟩⟩

theorem witness_FaultHaltsInsideInvariant : ∃ s f, State.Inv s ∧ step s = .fault f :=
  ⟨pastEnd 0xF155, (fault_of_haltIs (by decide)).imp fun _ h => ⟨inv_past_end, h⟩⟩

theorem witness_EveryTransactionKeepsInvariant : ∃ s, State.Inv s := ⟨edge 0x00EE, inv_edge_ret⟩

/-- A schedule after which an entry of the stack is in use, and one after which the core has halted. -/
theorem witness_ReachableStatesStayInBounds :
    (runSchedule State.reset [.load [0x22, 0x00] 0x200 4096, .step]).spValue = 0 ∧
    (runSchedule State.reset [.load [0x00, 0xEE] 0x200 4096, .step]).phase = .halted := by decide

theorem witness_DecodeAfterEncodeIsIdentity :
    (Instr.drw 15 15 15).wf = true ∧ (Instr.unimpl 0x812F#16).wf = true ∧ (Instr.unimpl 0xFFFF#16).wf = true := by decide

/-- A word of a row, and a word of none. -/
theorem witness_DecoderAgreesWithOpcodeTable :
    (∃ row ∈ opcodeTable, 0x812E#16 &&& row.mask = row.value) ∧
    ∀ row ∈ opcodeTable, 0x812F#16 &&& row.mask ≠ row.value := by decide

theorem witness_OpcodePatternsArePairwiseDisjoint :
    ∃ p ∈ opcodeTable, ∃ q ∈ opcodeTable, 0x00EE#16 &&& p.mask = p.value ∧ 0x00EE#16 &&& q.mask = q.value := by decide

/-- The last fetchable address. -/
theorem witness_StepRunsTheDecodedInstruction : ∃ s : State, s.phase = .run ∧ s.pc.toNat + 1 < 4096 ∧
    (0x6A55#16).toNat = 256 * (s.mem.read s.pc.toNat).toNat + (s.mem.read (s.pc.toNat + 1)).toNat :=
  ⟨(put 0xFFE [0x6A, 0x55] (start 0 id)).setPC 0xFFE, by decide⟩

theorem witness_FirstStepBeginsTheRun :
    ∃ s t : State, s.phase = .load ∧ step s = .next t :=
  ⟨State.reset, (next_of_nextIs (by decide)).imp fun _ h => ⟨rfl, h⟩⟩

/-- Both ends: `PC` one before the end of memory, and at the largest value it can take. -/
theorem witness_FetchOutsideMemoryFaults :
    (∃ s : State, s.phase ≠ .halted ∧ s.pc.toNat + 1 ≥ 4096 ∧ s.pc.toNat < 4096) ∧
    ∃ s : State, s.phase ≠ .halted ∧ s.pc.toNat + 1 ≥ 4096 ∧ s.pc.toNat = 0x10FE :=
  ⟨⟨(start 0 id).setPC 0xFFF, by decide⟩, ⟨(start 0 id).setPC 0x10FE, by decide⟩⟩

theorem witness_HaltedCoreIgnoresAllButReset :
    ∃ (s : State) (t : Transaction), s.phase = .halted ∧ t ≠ .reset :=
  ⟨(start 0x6001 id).enterFault .stackOverflow 0x2200, .step, by decide⟩

/-- The lowest entry, the highest entry, and the empty stack. -/
theorem witness_RetPopsTheReturnAddress :
    (∃ s : State, s.spValue = (0 : Fin 16).val) ∧ (∃ s : State, s.spValue = (15 : Fin 16).val) ∧
    ∃ s : State, s.spValue = -1 :=
  ⟨⟨(start 0 id).setSP (some 0), rfl⟩, ⟨(start 0 id).setSP (some 15), rfl⟩, ⟨start 0 id, rfl⟩⟩

/-- The first free entry, the last free entry, and the full stack. -/
theorem witness_CallPushesTheAdvancedPC :
    (∃ s : State, s.spValue + 1 = (0 : Fin 16).val) ∧ (∃ s : State, s.spValue + 1 = (15 : Fin 16).val) ∧
    ∃ s : State, s.spValue = 15 :=
  ⟨⟨start 0 id, rfl⟩, ⟨(start 0 id).setSP (some 14), rfl⟩, ⟨(start 0 id).setSP (some 15), rfl⟩⟩

theorem witness_RetUndoesCall :
    ∃ s t : State, s.spValue < 15 ∧ exec (.call 0x200) s = .next t :=
  ⟨(start 0 id).setSP (some 14), (next_of_nextIs (by decide)).imp fun _ h => ⟨by decide, h⟩⟩

/-- The lowest and the highest low nibble that is not 0. -/
theorem witness_SkipsOnRegisters :
    (1 ≤ 1 ∧ 1 ≤ 15 ∧ (0x5000 = 0x5000 ∨ 0x5000 = 0x9000)) ∧ 1 ≤ 15 ∧ 15 ≤ 15 ∧
      (0x9000 = 0x5000 ∨ 0x9000 = 0x9000) := by decide

theorem witness_LogicActsBitByBit : 0 < 8 ∧ 7 < 8 := by decide
theorem witness_AddRegistersReportsCarry : (0 : Reg) ≠ 15 ∧ (14 : Reg) ≠ 15 := by decide
theorem witness_SubtractionsReportStrictlyGreater : (0 : Reg) ≠ 15 ∧ (14 : Reg) ≠ 15 := by decide
theorem witness_ShiftsMoveOneBitToVF : (0 : Reg) ≠ 15 ∧ (14 : Reg) ≠ 15 := by decide

/-- `I` at the highest good base, and one above it. -/
theorem witness_StoreDecimalDigits :
    (∃ s : State, s.mem.wf = true ∧ s.i.toNat + 2 < 4096 ∧ s.i.toNat + 2 = 4095) ∧
    ∃ s : State, s.i.toNat + 2 ≥ 4096 ∧ s.i.toNat + 2 = 4096 :=
  ⟨⟨(start 0xF333 id).setI 0xFFD, by decide⟩, ⟨(start 0xF333 id).setI 0xFFE, by decide⟩⟩

theorem witness_StoreRegisterBlock :
    (∃ s : State, s.mem.wf = true ∧ s.i.toNat + (15 : Reg).val < 4096 ∧ s.i.toNat + (15 : Reg).val = 4095) ∧
    ∃ s : State, s.i.toNat + (0 : Reg).val ≥ 4096 ∧ s.i.toNat + (0 : Reg).val = 4096 :=
  ⟨⟨(start 0xFF55 id).setI 0xFF0, by decide⟩, ⟨(start 0xF055 id).setI 0x1000, by decide⟩⟩

theorem witness_LoadRegisterBlock :
    (∃ s : State, s.i.toNat + (15 : Reg).val < 4096 ∧ s.i.toNat + (15 : Reg).val = 4095) ∧
    ∃ s : State, s.i.toNat + (0 : Reg).val ≥ 4096 ∧ s.i.toNat + (0 : Reg).val = 4096 :=
  ⟨⟨(start 0xFF65 id).setI 0xFF0, by decide⟩, ⟨(start 0xF065 id).setI 0x1000, by decide⟩⟩

/-- A block that starts below `PC` and covers both its bytes, a block that ends at `PC`, one that starts at `PC + 1`,
and the digits of LD B at the last fetchable address. -/
theorem witness_StoredCodeIsFetchedNext :
    (∃ s t : State, s.mem.wf = true ∧ exec (.ldMemVx 3) s = .next t ∧ t.pc.toNat + 1 < 4096 ∧
      s.i.toNat < t.pc.toNat ∧ t.pc.toNat + 1 < s.i.toNat + 3) ∧
    (∃ s t : State, s.mem.wf = true ∧ exec (.ldMemVx 1) s = .next t ∧ t.pc.toNat + 1 < 4096 ∧
      t.pc.toNat = s.i.toNat + 1) ∧
    (∃ s t : State, s.mem.wf = true ∧ exec (.ldMemVx 0) s = .next t ∧ t.pc.toNat + 1 < 4096 ∧
      s.i.toNat = t.pc.toNat + 1) ∧
    ∃ s t : State, s.mem.wf = true ∧ exec (.ldB 0) s = .next t ∧ t.pc.toNat + 1 = 4095 ∧
      s.i.toNat = t.pc.toNat - 1 :=
  ⟨⟨(start 0 id).setI 0x1FF, _, rfl, rfl, by decide⟩, ⟨(start 0 id).setI 0x1FF, _, rfl, rfl, by decide⟩,
    ⟨(start 0 id).setI 0x201, _, rfl, rfl, by decide⟩, ⟨((start 0 id).setI 0xFFD).setPC 0xFFE, _, rfl, rfl, by decide⟩⟩

/-- No row at an `I` outside memory; fifteen rows ending at the last byte; and a cell that is toggled and one that is
not, for a one-row sprite. -/
theorem witness_DrawTogglesSpriteCells :
    (∃ s : State, s.i.toNat = 0xFFFF ∧ ((0 : BitVec 4) = 0 ∨ s.i.toNat + (0 : BitVec 4).toNat - 1 < 4096)) ∧
    (∃ s : State, s.i.toNat + (15 : BitVec 4).toNat - 1 = 4095) ∧
    ∃ s : State, Toggles s 63 31 1 63 31 ∧ ¬ Toggles s 63 31 1 0 31 := by
  refine ⟨⟨(start 0xD010 id).setI 0xFFFF, by decide⟩, ⟨(start 0xD01F id).setI 0xFF1, by decide⟩,
    (put 0xFFF [0x80] (start 0xD011 id)).setI 0xFFF, ⟨0, by decide, 0, by unfold SpriteDot; decide⟩, ?_⟩
  rintro ⟨r, hr, c, hc, hb, hX, hY⟩
  obtain rfl : r = 0 := by omega
  interval_cases c <;> revert hb hX <;> decide

/-- A draw that collides, and one that does not. -/
theorem witness_DrawReportsCollisions :
    (∃ s t : State, exec (.drw 0 1 1) s = .next t ∧ ∃ X Y, s.disp.lit X Y = true ∧ t.disp.lit X Y = false) ∧
    ∃ s t : State, exec (.drw 0 1 1) s = .next t ∧ ∀ X Y, s.disp.lit X Y = true → t.disp.lit X Y = true := by
  refine ⟨⟨((put 0x300 [0x80] (start 0 id)).setI 0x300).setDisp (Display.clear.toggle 0 0), _, rfl, 0, 0, by decide⟩,
    ⟨(put 0x300 [0x80] (start 0 id)).setI 0x300, _, rfl, fun X Y h => ?_⟩⟩
  exact absurd h (by simp [State.reset, start, put, Display.lit])

theorem witness_DrawChecksItsWholeRange :
    (∃ s : State, 1 ≤ (1 : BitVec 4).toNat ∧ s.i.toNat + (1 : BitVec 4).toNat - 1 ≥ 4096 ∧ s.i.toNat = 4096) ∧
    ∃ s : State, 1 ≤ (15 : BitVec 4).toNat ∧ s.i.toNat + (15 : BitVec 4).toNat - 1 ≥ 4096 ∧ s.i.toNat = 0xFF2 :=
  ⟨⟨(start 0xD011 id).setI 0x1000, by decide⟩, ⟨(start 0xD01F id).setI 0xFF2, by decide⟩⟩

theorem witness_DrawTwiceRestoresTheDisplay :
    ∃ s t : State, exec (.drw 0 1 1) s = .next t ∧ t.getV 0 = s.getV 0 ∧ t.getV 1 = s.getV 1 :=
  ⟨(put 0x300 [0x80] (start 0 id)).setI 0x300, _, rfl, by decide, by decide⟩

/-- A scaled buffer, at the last pixel of a block. -/
theorem witness_PixelBufferShowsTheDisplay :
    ∃ c : Config, c.wf = true ∧ 1 < c.physW / 64 ∧ 2 < c.physH / 32 :=
  ⟨{ Config.default 600 with physW := 128, physH := 96 }, by decide⟩

theorem witness_TimerInstructionsMoveOneByte : ∃ s t, exec (.ldVxDT 5) s = .next t ∧ State.st s ≠ 255 :=
  ⟨(start 0 id).setST 3, _, rfl, by decide⟩

theorem witness_TickCountsTimersDown :
    (∃ s : State, s.phase ≠ .halted ∧ s.dt = 0 ∧ s.st = 255) ∧ ∃ s : State, s.phase = .halted :=
  ⟨⟨(start 0 id).setST 255, by decide⟩, ⟨(start 0 id).setPhase .halted, by decide⟩⟩

theorem witness_TickCommutesWithOtherInstructions : ∃ s t : State,
    (∀ x, Instr.call 0x300 ≠ .ldVxDT x ∧ Instr.call 0x300 ≠ .ldDTVx x ∧ Instr.call 0x300 ≠ .ldSTVx x) ∧
    s.phase = .run ∧ exec (.call 0x300) s = .next t :=
  ⟨(start 0 id).setDT 1, (next_of_nextIs (by decide)).imp fun _ h => ⟨by decide, by decide, h⟩⟩

/-- The source's example rate, ten steps for each tick. -/
theorem witness_PacedScheduleTicksOncePerPeriod :
    (Config.default 600).clockIps = 60 * 10 ∧ .tick ∈ pacedSchedule (Config.default 600) 1 ∧
    .step ∈ pacedSchedule (Config.default 600) 1 := by decide

theorem witness_UnimplementedWordIsReportedNoOp :
    (∀ row ∈ opcodeTable, 0xF029#16 &&& row.mask ≠ row.value) ∧
    ∃ s : State, s.phase = .run ∧ s.fetch = some 0xF029 :=
  ⟨by decide, start 0xF029 id, by decide⟩

/-- Each of the three faults the execute part can raise, and an instruction that raises none. -/
theorem witness_FaultsAriseExactlyAsListed :
    (∃ s, faultOf .ret s = some .stackUnderflow) ∧ (∃ s, faultOf (.call 0) s = some .stackOverflow) ∧
    (∃ s, faultOf (.ldB 0) s = some .invalidAddressData) ∧ ∃ s, faultOf (.drw 0 0 0) s = none :=
  ⟨⟨start 0 id, by decide⟩, ⟨(start 0 id).setSP (some 15), by decide⟩, ⟨(start 0 id).setI 0xFFE, by decide⟩,
    ⟨(start 0 id).setI 0xFFFF, by decide⟩⟩

/-- A fetch fault, and a fault of the execute part. -/
theorem witness_StepFaultsArePrecise :
    (∃ s f, step s = .fault f ∧ f.cause = .invalidAddressFetch) ∧
    ∃ s f, step s = .fault f ∧ f.cause ≠ .invalidAddressFetch :=
  ⟨⟨(start 0 id).setPC 0xFFF, _, rfl, rfl⟩, ⟨start 0x00EE id, _, rfl, by decide⟩⟩

theorem witness_InstructionsChangeOnlyTheirParts : ∃ s t, exec (.ldVxMem 15) s = .next t :=
  ⟨(start 0 id).setI 0xFF0, next_of_nextIs (by decide)⟩

/-- A register the instruction neither reads nor writes, and one it writes without reading it. -/
theorem witness_RegistersFollowTheReadWriteTable : ∃ s t, exec (.addReg 1 2) s = .next t ∧
    ¬ writesReg (.addReg 1 2) 0 ∧ ¬ readsReg (.addReg 1 2) 0 ∧
    writesReg (.addReg 1 2) 15 ∧ ¬ readsReg (.addReg 1 2) 15 :=
  ⟨start 0 id, (next_of_nextIs (by decide)).imp fun _ h =>
    ⟨h, by unfold writesReg; decide, by unfold readsReg; decide, by unfold writesReg; decide,
      by unfold readsReg; decide⟩⟩

/-- The spin of vector CV4, under two steps and a tick. -/
theorem witness_SpinFreezesAllButTimers :
    ∃ (s : State) (ts : List Transaction), s.ended ∧ (∀ t ∈ ts, t = .step ∨ t = .tick) ∧ ts ≠ [] :=
  ⟨start 0x1200 id, [.step, .tick, .step], ⟨by decide, by decide, by decide⟩, by decide, by decide⟩

theorem image_of_length (n : Nat) : ∃ bs : List Byte, bs.length = n := ⟨List.replicate n 0xAB, List.length_replicate⟩

/-- 3584 bytes fit, 3585 do not (T1). -/
theorem witness_LoadProgramStoresVerbatim :
    State.reset.phase = .load ∧ State.reset.mem.wf = true ∧
    (∃ bs : List Byte, 0x200 + bs.length ≤ 4096 ∧ 0x200 + bs.length = 4096) ∧
    ∃ bs : List Byte, 0x200 + bs.length > 4096 ∧ 0x200 + bs.length = 4097 :=
  ⟨rfl, rfl, (image_of_length 3584).imp fun _ h => by omega, (image_of_length 3585).imp fun _ h => by omega⟩

/-- A core that runs, the last load that fits, the first that does not. -/
theorem witness_LoadCopiesAllOrNothing :
    (∃ s : State, s.mem.wf = true ∧ s.phase ≠ .load) ∧ State.reset.mem.wf = true ∧ State.reset.phase = .load ∧
    0x1FF + [(0xCD : Byte)].length ≤ 0x200 ∧ 0x200 + [(0xCD : Byte)].length > 0x200 ∧ 0x200 ≤ 4096 :=
  ⟨⟨start 0 id, by decide⟩, by decide⟩

theorem witness_LoadsAreIdempotentAndCommute :
    ∃ s t u : State, s.mem.wf = true ∧ s.phase = .load ∧ load [1, 2] 0x200 4096 s = .next t ∧
      0x200 + [(1 : Byte), 2].length ≤ 0x202 ∧ load [3] 0x202 4096 t = .next u :=
  ⟨State.reset, _, _, rfl, rfl, rfl, by decide, rfl⟩

theorem witness_LaunchStateHoldsFontAndProgram :
    ∃ rom : List Byte, rom.length ≤ 3584 ∧ rom.length = 3584 ∧
      (Config.default 600).fontBase + (Config.default 600).fontData.length ≤ 0x200 :=
  (image_of_length 3584).imp fun _ h => ⟨by omega, h, by decide⟩

/-- `LoadFont` outside `LOAD`, the longest font that loads, and one byte more (LV3, LV4). -/
theorem witness_LoadFontStaysBelowTheProgram :
    (∃ s : State, s.mem.wf = true ∧ s.phase ≠ .load) ∧ State.reset.mem.wf = true ∧ State.reset.phase = .load ∧
    (∃ bs : List Byte, (Config.default 600).fontBase + bs.length ≤ 0x200 ∧ bs.length = 432) ∧
    ∃ bs : List Byte, (Config.default 600).fontBase + bs.length > 0x200 ∧ bs.length = 433 :=
  ⟨⟨start 0 id, by decide⟩, rfl, rfl,
    (image_of_length 432).imp fun _ h => ⟨by show 0x050 + _ ≤ _; omega, h⟩,
    (image_of_length 433).imp fun _ h => ⟨by show 0x050 + _ > _; omega, h⟩⟩

theorem witness_ObservationShowsWhatTheHostReads :
    (∃ s : State, s.phase = .halted) ∧ ∃ s : State, s.phase ≠ .halted :=
  ⟨⟨(start 0 id).setPhase .halted, rfl⟩, ⟨start 0 id, by decide⟩⟩

/-- The request pins, everything else 0. -/
def pins (rst loadEn loadFail stepEn tickEn : Bool) : PinsIn :=
  ⟨rst, loadEn, 0xFFF, 0xAB, loadFail, stepEn, tickEn, 0, 0⟩

/-- An edge of each clause: a reset over everything else; every request at once outside `LOAD`; a step with a tick in
`LOAD`; a load with a tick; a failed load with a tick; and two requests together in `LOAD`. -/
theorem witness_ClockEdgePerformsTransactions :
    (∃ p : PinsIn, p.rst = true ∧ p.stepEn = true ∧ p.loadEn = true) ∧
    (∃ (p : PinsIn) (s : State), p.rst = false ∧ s.phase ≠ .load ∧ p.loadEn = true ∧ p.loadFail = true ∧
      p.stepEn = true ∧ p.tickEn = true) ∧
    (∃ (p : PinsIn) (s : State), p.rst = false ∧ s.phase = .load ∧ p.loadEn = false ∧ p.loadFail = false ∧
      p.stepEn = true ∧ p.tickEn = true) ∧
    (∃ (p : PinsIn) (s : State), p.rst = false ∧ s.phase = .load ∧ p.loadEn = true ∧ p.loadFail = false ∧
      p.stepEn = false ∧ p.tickEn = true) ∧
    (∃ (p : PinsIn) (s : State), p.rst = false ∧ s.phase = .load ∧ p.loadEn = false ∧ p.loadFail = true ∧
      p.stepEn = false ∧ p.tickEn = true) ∧
    (∃ (p : PinsIn) (s : State), p.rst = false ∧ s.phase = .load ∧ p.loadFail = true ∧ p.stepEn = true) ∧
    ∃ p s t o, clockEdge p s = some (t, o) :=
  ⟨⟨pins true true true true true, by decide⟩, ⟨pins false true true true true, start 0 id, by decide⟩,
    ⟨pins false false false true true, State.reset, by decide⟩, ⟨pins false true false false true, State.reset, by decide⟩,
    ⟨pins false false true false true, State.reset, by decide⟩, ⟨pins false false true true false, State.reset, by decide⟩,
    pins true false false false false, State.reset, _, _, rfl⟩

end Sys2Proof.Tests
end

section
/-! What a completing instruction does to memory, program counter and stack, said once. -/

namespace Sys2Proof.Machine

/-- What a completing instruction does to the elements the invariant speaks of: memory, `PC`, `SP`, `STACK`, `PHASE`
and `FAULT`. -/
inductive Effect (s : State) : State → Prop where
  /-- only registers, `I`, timers or display are written -/
  | quiet {t : State} (mem : t.mem = s.mem) (pc : t.pc = s.pc) (sp : t.sp = s.sp) (stack : t.stack = s.stack)
      (phase : t.phase = s.phase) (fault : t.fault = s.fault) : Effect s t
  /-- bytes are stored from `I` upward, inside memory (LD B, LD [I]) -/
  | store (bs : List Byte) (inside : s.ea + bs.length ≤ 4096) : Effect s (s.setMem (s.mem.writeBytes s.ea bs))
  /-- a jump; the largest target is `0xFFF + 0xFF` -/
  | jump (target : Word) (bound : target.toNat ≤ 0x10FE) : Effect s (s.setPC target)
  /-- a skip whose condition holds -/
  | skip : Effect s (s.setPC (s.pc + 2))
  /-- CALL with a free entry `k` -/
  | call (k : Fin 16) (free : spPush s.sp = some k) (target : BitVec 12) :
      Effect s (((s.setSP (some k)).setEntry k s.pc).setPC (zextAddr target))
  /-- RET from the top entry `k` -/
  | ret (k : Fin 16) (top : s.sp = some k) : Effect s ((s.setPC s.stack[k]).setSP (spPop k))

/-- The advance does not wrap for any `PC` the invariant allows. -/
theorem toNat_add_two {a : Word} (h : a.toNat ≤ 0x10FE) : (a + 2).toNat = a.toNat + 2 := by
  rw [BitVec.toNat_add, show (2 : Word).toNat = 2 from rfl]
  omega

theorem toNat_zextAddr_le (a : BitVec 12) : (zextAddr a).toNat ≤ 0xFFF := by
  have := a.isLt
  simp only [zextAddr, BitVec.toNat_setWidth]
  omega

theorem toNat_jpV0_le (a : BitVec 12) (b : Byte) : (zextAddr a + zextByte b).toNat ≤ 0x10FE := by
  have := a.isLt
  have := b.isLt
  simp only [zextAddr, zextByte, BitVec.toNat_add, BitVec.toNat_setWidth]
  omega

/-- A skip advances `PC` or does nothing. -/
theorem Effect.of_skipIf {c : Bool} {s t : State} (h : skipIf c s = .next t) : Effect s t := by
  cases c <;> cases h
  · exact .quiet rfl rfl rfl rfl rfl rfl
  · exact .skip

/-- Every instruction that completes has one of the effects listed. -/
theorem exec_effect {i : Instr} {s t : State} (h : exec i s = .next t) : Effect s t := by
  cases i
  case ret =>
    obtain ⟨k, top, rfl⟩ := execRet_next h
    exact .ret k top
  case call a =>
    obtain ⟨k, free, rfl⟩ := execCall_next h
    exact .call k free a
  case jp a => cases h; exact .jump _ ((toNat_zextAddr_le a).trans (by decide))
  case jpV0 a => cases h; exact .jump _ (toNat_jpV0_le a _)
  case seImm | sneImm | seReg | sneReg => exact .of_skipIf h
  case ldB x =>
    obtain ⟨inside, rfl⟩ := guardRange_next h
    exact .store _ inside
  case ldMemVx x =>
    obtain ⟨inside, rfl⟩ := guardRange_next h
    exact .store _ (by rwa [List.length_map, length_regsUpTo])
  case ldVxMem x =>
    obtain ⟨-, rfl⟩ := guardRange_next h
    rw [State.loadRegs_eq]
    exact .quiet rfl rfl rfl rfl rfl rfl
  case drw x y n =>
    obtain ⟨-, rfl⟩ := execDrw_next h
    exact .quiet rfl rfl rfl rfl rfl rfl
  all_goals cases h; exact .quiet rfl rfl rfl rfl rfl rfl

end Sys2Proof.Machine
end

section
/-! The invariant: which entries are in use after a push and a pop, which updates keep it, and that every
transaction does (spec/10_state.md R29, R33, R40). -/

namespace Sys2Proof.Machine

/-- An entry is in use exactly up to the signed value of `SP` (R31). -/
theorem inUse_iff (s : State) (k : Fin 16) : s.inUse k ↔ (k.val : Int) ≤ s.spValue := by
  unfold State.inUse State.spValue
  cases s.sp with
  | none => simp; omega
  | some top => simp

theorem inUse_congr {s t : State} (h : t.sp = s.sp) (k : Fin 16) : t.inUse k ↔ s.inUse k := by
  simp only [State.inUse, h]

theorem spPush_some : ∀ p k : Fin 16, spPush (some p) = some k → k.val = p.val + 1 := by decide

/-- Pushing to entry `k` raises `SP` by one to `k`. -/
theorem spValue_of_spPush {s : State} {k : Fin 16} (h : spPush s.sp = some k) : s.spValue = k.val - 1 := by
  unfold State.spValue
  cases hs : s.sp with
  | none => rw [hs] at h; cases h; rfl
  | some p =>
    have := spPush_some p k (hs ▸ h)
    simp only
    omega

/-- Popping entry `k` leaves `SP` one below it. -/
theorem spValue_setSP_spPop (s : State) (k : Fin 16) : (s.setSP (spPop k)).spValue = k.val - 1 := by
  unfold spPop
  split
  · rename_i h; rw [h]; rfl
  · show ((k.val - 1 : Nat) : Int) = k.val - 1
    omega

theorem faultAgrees_of_eq {s t : State} (hp : t.phase = s.phase) (hf : t.fault = s.fault) (h : s.faultAgrees) :
    t.faultAgrees := by
  rw [State.faultAgrees, hp, hf]
  exact h

/-- An instruction executed at an advanced `PC` keeps the invariant. CALL needs the bounds on `PC`, which it pushes;
RET needs the bounds on the popped entry, which becomes `PC`. -/
theorem Effect.keeps_inv {s t : State} (h : Effect s t) (hs : s.Inv) (lo : 2 ≤ s.pc.toNat)
    (hi : s.pc.toNat ≤ 0x1000) : t.Inv := by
  obtain ⟨hmem, hpc, hstack, hfault⟩ := hs
  cases h with
  | quiet mem pc sp stack phase fault =>
    exact ⟨mem ▸ hmem, pc ▸ hpc, fun k hk => stack ▸ hstack k ((inUse_congr sp k).1 hk),
      faultAgrees_of_eq phase fault hfault⟩
  | store bs inside => exact ⟨Memory.wf_writeBytes inside hmem, hpc, hstack, hfault⟩
  | jump target bound => exact ⟨hmem, bound, hstack, hfault⟩
  | skip =>
    refine ⟨hmem, ?_, hstack, hfault⟩
    rw [State.setPC_pc, toNat_add_two hpc]
    omega
  | call k free target =>
    refine ⟨hmem, (toNat_zextAddr_le target).trans (by decide), fun j hj => ?_, hfault⟩
    have old := spValue_of_spPush free
    rw [inUse_iff, (State.spValue_eq_coe _ k).2 rfl] at hj
    simp only [State.setPC_stack, State.setEntry_eq, State.setStack_stack, State.setSP_stack, Fin.getElem_fin,
      Vector.getElem_set]
    split
    · exact ⟨lo, hi⟩
    · exact hstack j ((inUse_iff s j).2 (by omega))
  | ret k top =>
    have value := (s.spValue_eq_coe k).2 top
    have target := (hstack k ((inUse_iff s k).2 value.ge)).2
    refine ⟨hmem, target.trans (by decide), fun j hj => hstack j ((inUse_iff s j).2 ?_), hfault⟩
    rw [inUse_iff, spValue_setSP_spPop] at hj
    omega

/-! ## Updates that keep the invariant -/

theorem State.Inv.beginRun {s : State} (h : s.Inv) (alive : s.phase ≠ .halted) : s.beginRun.Inv := by
  obtain ⟨hmem, hpc, hstack, hrunning, -⟩ := h
  exact ⟨hmem, hpc, hstack, fun _ => hrunning alive, fun h => by cases h⟩

theorem State.Inv.setPC {s : State} (h : s.Inv) {a : Word} (ha : a.toNat ≤ 0x10FE) : (s.setPC a).Inv := by
  obtain ⟨hmem, -, hstack, hfault⟩ := h
  exact ⟨hmem, ha, hstack, hfault⟩

theorem State.Inv.setMem {s : State} (h : s.Inv) {m : Memory} (hm : m.wf = true) : (s.setMem m).Inv := by
  obtain ⟨-, hpc, hstack, hfault⟩ := h
  exact ⟨hm, hpc, hstack, hfault⟩

/-- The codes of R201. -/
theorem FaultCause.code_range (c : FaultCause) : 1 ≤ c.code.toNat ∧ c.code.toNat ≤ 5 := by
  cases c <;> decide

theorem State.Inv.enterFault {s : State} (h : s.Inv) (c : FaultCause) (op : Word) : (s.enterFault c op).Inv := by
  obtain ⟨hmem, hpc, hstack, -⟩ := h
  exact ⟨hmem, hpc, hstack, fun h => absurd rfl h, fun _ => c.code_range⟩

theorem State.Inv.at_reset : State.reset.Inv := by
  refine ⟨Memory.reset_wf, by decide, fun k hk => ?_, fun _ => rfl, fun h => by cases h⟩
  obtain ⟨top, empty, -⟩ := hk
  cases empty

theorem State.Inv.after_tick {s : State} (h : s.Inv) : (tick s).Inv := by
  by_cases hp : s.phase = .halted
  · rwa [tick_halted hp]
  · obtain ⟨hmem, hpc, hstack, hfault⟩ := h
    rw [tick_of_alive hp]
    exact ⟨hmem, hpc, hstack, hfault⟩

/-- The state an instruction of a step is executed in: `PC` is advanced from a fetchable address, so it lies between
0x0002 and 0x1000 (R33). -/
theorem State.Inv.advance {s : State} (h : s.Inv) (alive : s.phase ≠ .halted) (inside : s.pc.toNat + 2 ≤ 4096) :
    s.beginRun.advance.Inv ∧ 2 ≤ s.beginRun.advance.pc.toNat ∧ s.beginRun.advance.pc.toNat ≤ 0x1000 := by
  have pc : s.beginRun.advance.pc.toNat = s.pc.toNat + 2 := toNat_add_two h.pc
  exact ⟨(h.beginRun alive).setPC (pc.trans_le (by omega)), by omega, by omega⟩

/-! ## Steps, transactions and schedules -/

/-- Settles O3: by the cases of a step, and in the executing one by the effect of the instruction. -/
theorem stepKeepsMachineInvariant : Obligations.StepKeepsMachineInvariant := by
  intro s t hs h
  obtain ⟨-, hstep⟩ | ⟨-, -, hstep⟩ | ⟨alive, inside, hstep⟩ := step_cases s
  · rw [hstep] at h; cases h; exact hs
  · rw [hstep] at h; cases h
  · rw [hstep] at h
    obtain ⟨ready, lo, hi⟩ := hs.advance alive inside
    exact (exec_effect h).keeps_inv ready lo hi

/-- A fault of a step halts inside the invariant (R208). -/
theorem step_fault_keeps_inv {s : State} {f : Fault} (hs : s.Inv) (h : step s = .fault f) : f.halted.Inv := by
  obtain ⟨-, hstep⟩ | ⟨alive, -, hstep⟩ | ⟨alive, inside, hstep⟩ := step_cases s <;> rw [hstep] at h
  · cases h
  · cases h; exact (hs.beginRun alive).enterFault _ _
  · obtain ⟨c, -, -, rfl⟩ := exec_fault h
    rw [Fault.halted_of]
    obtain ⟨ready, -, -⟩ := hs.advance alive inside
    exact ready.enterFault c _

/-- Settles O5: one case per transaction, and in it one per outcome. -/
theorem everyTransactionKeepsInvariant : Obligations.EveryTransactionKeepsInvariant := by
  intro s tr hs
  cases tr with
  | reset => exact State.Inv.at_reset
  | load bs off lim =>
    obtain ⟨-, h⟩ | ⟨-, -, h⟩ | ⟨-, hle, h⟩ := load_cases bs off lim s <;> rw [State.after, h]
    · exact hs
    · exact hs.enterFault _ _
    · exact hs.setMem (Memory.wf_writeBytes (hle.trans (Nat.min_le_right _ _)) hs.mem)
  | step =>
    rw [State.after]
    cases h : step s with
    | next t => exact stepKeepsMachineInvariant s t hs h
    | fault f => exact step_fault_keeps_inv hs h
    | refused r => exact hs
  | tick => exact hs.after_tick
  | observe => exact hs

/-- What every transaction keeps, every schedule keeps. -/
theorem runSchedule_keeps_inv : ∀ (ts : List Transaction) {s : State}, s.Inv → (runSchedule s ts).Inv
  | [], _, h => h
  | t :: ts, s, h => runSchedule_keeps_inv ts (everyTransactionKeepsInvariant s t h)

/-- `FAULT` holds a code exactly when the core has halted (R40). -/
theorem halted_iff_code {s : State} (h : s.faultAgrees) :
    (s.phase = .halted ↔ s.fault.code ≠ 0) ∧ s.fault.code.toNat ≤ 5 := by
  obtain ⟨alive, halted⟩ := h
  by_cases hp : s.phase = .halted
  · obtain ⟨lo, hi⟩ := halted hp
    exact ⟨⟨fun _ h0 => by rw [h0] at lo; exact absurd lo (by decide), fun _ => hp⟩, hi⟩
  · simp [hp, alive hp]

/-- Settles O6: reset is inside the invariant, and every schedule keeps it. -/
theorem reachableStatesStayInBounds : Obligations.ReachableStatesStayInBounds := by
  rintro ts s rfl
  obtain ⟨-, pc, stack, fault⟩ := runSchedule_keeps_inv ts State.Inv.at_reset
  obtain ⟨lo, hi⟩ := (runSchedule State.reset ts).spValue_range
  exact ⟨pc, lo, hi, fun k hk => stack k ((inUse_iff _ k).2 hk), halted_iff_code fault⟩

end Sys2Proof.Machine
end

section
/-! Phases, the event of a step, and what the host reads (spec/10_state.md R39, R44). -/

namespace Sys2Proof.Machine

theorem Effect.phase_eq {s t : State} (h : Effect s t) : t.phase = s.phase := by
  cases h with
  | quiet _ _ _ _ phase _ => exact phase
  | store | jump | skip | call | ret => rfl

/-- A step of a core that has not halted leaves it running, unless it faults. -/
theorem step_next_phase {s t : State} (alive : s.phase ≠ .halted) (h : step s = .next t) : t.phase = .run := by
  obtain ⟨halted, -⟩ | ⟨-, -, hstep⟩ | ⟨-, -, hstep⟩ := step_cases s
  · exact absurd halted alive
  · rw [hstep] at h; cases h
  · rw [hstep] at h; exact (exec_effect h).phase_eq

/-- A step depends on the phase only in whether the core has halted. -/
theorem step_beginRun {s : State} (alive : s.phase ≠ .halted) : step s.beginRun = step s := by
  have running : s.beginRun.phase ≠ .halted := Phase.noConfusion
  cases hf : s.fetch with
  | none => rw [step_fetchFault alive hf, step_fetchFault running hf]; rfl
  | some op => rw [step_exec alive hf, step_exec running hf]; rfl

theorem stepEvent_of_alive {s : State} (alive : s.phase ≠ .halted) :
    stepEvent s = s.fetch.bind fun op => eventOf (decode op) := by
  unfold stepEvent
  split
  · exact absurd ‹_› alive
  all_goals rfl

theorem stepEvent_halted {s : State} (h : s.phase = .halted) : stepEvent s = none := by
  simp only [stepEvent, h]

/-- Settles O13: a step begins the run itself, whatever the phase it finds but `HALTED`. -/
theorem firstStepBeginsTheRun : Obligations.FirstStepBeginsTheRun := by
  intro s hs
  have alive : s.phase ≠ .halted := by rw [hs]; decide
  refine ⟨(step_beginRun alive).symm, ?_, fun t => step_next_phase alive⟩
  rw [stepEvent_of_alive alive, stepEvent_of_alive Phase.noConfusion]
  rfl

/-- Settles O15: one case per transaction. -/
theorem haltedCoreIgnoresAllButReset : Obligations.HaltedCoreIgnoresAllButReset := by
  intro s tr hs
  refine ⟨?_, fun hr => ?_, rfl, step_halted hs⟩
  · cases tr with
    | step => exact stepEvent_halted hs
    | reset | load | tick | observe => rfl
  · cases tr with
    | reset => exact absurd rfl hr
    | load bs off lim => simp only [State.after, load, hs, stateAfter]
    | step => rw [State.after, step_halted hs, stateAfter]
    | tick => exact tick_halted hs
    | observe => rfl

/-- Settles O57: the fields of an observation, and its condition on `HALTED`. -/
theorem observationShowsWhatTheHostReads : Obligations.ObservationShowsWhatTheHostReads := by
  intro s
  exact ⟨rfl, rfl, rfl, rfl, fun h => if_pos h, fun h => if_neg h, rfl, rfl⟩

end Sys2Proof.Machine
end

section
/-! The physical pixel buffer (spec/10_state.md R38). -/

namespace Sys2Proof.Machine

theorem block_lt {n a s i : Nat} (ha : a < n) (hi : i < s) : a * s + i < n * s :=
  calc a * s + i < (a + 1) * s := by rw [Nat.succ_mul]; omega
    _ ≤ n * s := Nat.mul_le_mul_right s ha

theorem block_div {a s i : Nat} (hi : i < s) : (a * s + i) / s = a := by
  rw [Nat.mul_comm, Nat.mul_add_div (by omega), Nat.div_eq_of_lt hi, Nat.add_zero]

/-- Pixel `i` of pixel row `j` in the block of the cell `(X, Y)`: it lies inside the buffer, and its column and its row
give back `X` and `Y`. -/
theorem pixel_index {sx sy X Y i j : Nat} (hX : X < 64) (hY : Y < 32) (hi : i < sx) (hj : j < sy) :
    (Y * sy + j) * (64 * sx) + (X * sx + i) < (64 * sx) * (32 * sy) ∧
    ((Y * sy + j) * (64 * sx) + (X * sx + i)) % (64 * sx) / sx = X ∧
    ((Y * sy + j) * (64 * sx) + (X * sx + i)) / (64 * sx) / sy = Y := by
  have col : X * sx + i < 64 * sx := block_lt hX hi
  have row : Y * sy + j < 32 * sy := block_lt hY hj
  refine ⟨?_, ?_, ?_⟩
  · rw [Nat.mul_comm (64 * sx)]
    exact block_lt row col
  · rw [Nat.mul_add_mod', Nat.mod_eq_of_lt col, block_div hi]
  · rw [block_div col, block_div hj]

/-- A well-formed configuration has whole scales and two colours (R38). -/
theorem config_sizes_of_wf {c : Config} (h : c.wf = true) :
    c.physW = 64 * c.scaleX ∧ c.physH = 32 * c.scaleY ∧ c.colorBg ≠ c.colorOn := by
  simp only [Config.wf, Bool.and_eq_true, beq_iff_eq, bne_iff_ne, decide_eq_true_eq] at h
  obtain ⟨⟨⟨⟨⟨⟨⟨-, hw⟩, -⟩, hh⟩, -⟩, -⟩, colours⟩, -⟩ := h
  simp only [Config.scaleX, Config.scaleY]
  exact ⟨by omega, by omega, colours⟩

theorem getElem?_pixelBuffer (c : Config) (d : Display) {k : Nat} (h : k < c.physW * c.physH) :
    (pixelBuffer c d)[k]? = some (pixelAt c d k) := by
  rw [pixelBuffer, List.getElem?_map, List.getElem?_range h, Option.map_some]

/-- A pixel whose column and row, divided by the scales, are `X` and `Y` has the colour of that cell (R38). -/
theorem pixelAt_of_cell {c : Config} {d : Display} {k : Nat} {X : Fin 64} {Y : Fin 32}
    (hX : k % c.physW / c.scaleX = X.val) (hY : k / c.physW / c.scaleY = Y.val) :
    pixelAt c d k = if d.lit X Y then c.colorOn else c.colorBg := by
  rw [pixelAt, hX, hY, Fin.ofNat_val_eq_self, Fin.ofNat_val_eq_self]

/-- Settles O39: the index of a pixel gives back the cell, and the cell its colour. -/
theorem pixelBufferShowsTheDisplay : Obligations.PixelBufferShowsTheDisplay := by
  intro c d hc
  obtain ⟨hw, hh, colours⟩ := config_sizes_of_wf hc
  refine ⟨by rw [pixelBuffer, List.length_map, List.length_range], fun X Y i j hi hj => ?_⟩
  rw [show c.physW / 64 = c.scaleX from rfl] at hi ⊢
  rw [show c.physH / 32 = c.scaleY from rfl] at hj ⊢
  obtain ⟨inside, hX, hY⟩ := pixel_index X.isLt Y.isLt hi hj
  rw [← hw] at inside hX hY
  rw [← hh] at inside
  refine ⟨_, getElem?_pixelBuffer c d inside, ?_⟩
  rw [pixelAt_of_cell hX hY]
  cases d.lit X Y <;> simp [colours]

end Sys2Proof.Machine
end

section
/-! Unimplemented words: where the decoder reports one, and where a row of the table claims one
(spec/30_encoding.md R95 to R97, spec/10_state.md R41). -/

namespace Sys2Proof.Machine

theorem eventOf_eq_some {i : Instr} {e : Event} :
    eventOf i = some e ↔ ∃ op, i = .unimpl op ∧ e = .unimpl op := by
  cases i with
  | unimpl op => simp [eventOf, eq_comm]
  | _ => simp [eventOf]

/-- The words of a family that no row of the opcode table claims (R97). -/
def unclaimedIn (fam op : Nat) : Prop :=
  match fam with
  | 0x0 => op ≠ 0x00E0 ∧ op ≠ 0x00EE
  | 0x5 | 0x9 => op % 16 ≠ 0
  | 0x8 => 8 ≤ op % 16 ∧ op % 16 ≠ 0xE
  | 0xC | 0xE => True
  | 0xF => op % 256 ∉ [0x07, 0x15, 0x18, 0x1E, 0x33, 0x55, 0x65]
  | _ => False

/-- No row of the table claims a word exactly where its family leaves it unclaimed: the rows by the part of the word
their mask selects, the whole of it or the family with the low nibble, the low byte or neither. -/
theorem unclaimed_iff (op : Word) :
    (∀ row ∈ opcodeTable, op &&& row.mask ≠ row.value) ↔ unclaimedIn (op.toNat / 4096) op.toNat := by
  have whole : (op &&& 0xFFFF#16).toNat = op.toNat := congrArg _ (BitVec.and_allOnes (x := op))
  simp only [opcodeTable, List.forall_mem_append, List.forall_mem_cons, List.not_mem_nil, false_imp_iff, implies_true,
    and_true, ne_eq, ← BitVec.toNat_inj, whole, toNat_and_family, toNat_and_nibble, toNat_and_byte, BitVec.toNat_ofNat]
  have lt : op.toNat / 4096 < 16 := by omega
  have parts := Nat.div_add_mod op.toNat 4096
  generalize op.toNat / 4096 = fam at *
  interval_cases fam <;> simp [unclaimedIn] <;> omega

/-! ## The decoder, family by family (R95) -/

theorem decodeFamily0_eq_unimpl {op w : Word} :
    decodeFamily0 op = .unimpl w ↔ op = w ∧ unclaimedIn 0x0 op.toNat := by
  have cls : op = 0x00E0#16 ↔ op.toNat = 0x00E0 := BitVec.toNat_inj.symm
  have ret : op = 0x00EE#16 ↔ op.toNat = 0x00EE := BitVec.toNat_inj.symm
  unfold decodeFamily0 unclaimedIn
  split
  · simp_all
  · split <;> simp_all

theorem decodeFamily8_eq_unimpl {op w : Word} :
    decodeFamily8 op = .unimpl w ↔ op = w ∧ unclaimedIn 0x8 op.toNat := by
  have lt : op.toNat % 16 < 16 := Nat.mod_lt _ (by decide)
  unfold decodeFamily8 unclaimedIn
  rw [toNat_nOf]
  generalize op.toNat % 16 = n at lt
  interval_cases n <;> simp

theorem decodeFamilyF_eq_unimpl {op w : Word} :
    decodeFamilyF op = .unimpl w ↔ op = w ∧ unclaimedIn 0xF op.toNat := by
  unfold decodeFamilyF unclaimedIn
  rw [toNat_kkOf]
  split <;> simp_all

/-- Families 5 and 9: only the low nibble 0 is implemented. -/
theorem ite_nOf_eq_unimpl {op w : Word} {i : Instr} (hi : ∀ v, i ≠ .unimpl v) :
    (if nOf op = 0 then i else .unimpl op) = .unimpl w ↔ op = w ∧ op.toNat % 16 ≠ 0 := by
  have zero : nOf op = 0 ↔ op.toNat % 16 = 0 := by rw [← toNat_nOf, ← BitVec.toNat_inj]; rfl
  split <;> simp_all

/-- The decoder reports a word as unimplemented exactly where its family leaves it unclaimed, and reports it whole. -/
theorem decode_eq_unimpl {op w : Word} :
    decode op = .unimpl w ↔ op = w ∧ unclaimedIn (op.toNat / 4096) op.toNat := by
  have lt : op.toNat / 4096 < 16 := by omega
  unfold decode
  rw [toNat_famOf]
  generalize op.toNat / 4096 = f at lt
  match f, lt with
  | 0x0, _ => exact decodeFamily0_eq_unimpl
  | 0x5, _ | 0x9, _ => exact ite_nOf_eq_unimpl (by simp)
  | 0x8, _ => exact decodeFamily8_eq_unimpl
  | 0xF, _ => exact decodeFamilyF_eq_unimpl
  | 0x1, _ | 0x2, _ | 0x3, _ | 0x4, _ | 0x6, _ | 0x7, _ | 0xA, _ | 0xB, _ | 0xC, _ | 0xD, _ | 0xE, _ =>
    simp [unclaimedIn]
  | _ + 16, h => omega

/-- The event of a word reports it exactly where no row of the table claims it (R97). -/
theorem eventOf_decode {op : Word} {e : Event} :
    eventOf (decode op) = some e ↔ (∀ row ∈ opcodeTable, op &&& row.mask ≠ row.value) ∧ e = .unimpl op := by
  rw [eventOf_eq_some, unclaimed_iff]
  constructor
  · rintro ⟨w, hw, rfl⟩
    obtain ⟨rfl, h⟩ := decode_eq_unimpl.1 hw
    exact ⟨h, rfl⟩
  · rintro ⟨h, rfl⟩
    exact ⟨op, decode_eq_unimpl.2 ⟨rfl, h⟩, rfl⟩

/-! ## Fetch and event -/

theorem eq_readWord_iff {m : Memory} {a : Nat} {op : Word} :
    op.toNat = 256 * (m.read a).toNat + (m.read (a + 1)).toNat ↔ op = m.readWord a := by
  rw [← BitVec.toNat_inj, Memory.readWord, toNat_wordOfBytes]

theorem fetch_eq_some {s : State} {op : Word} :
    s.fetch = some op ↔ s.pc.toNat + 1 < 4096 ∧ op = s.mem.readWord s.pc.toNat := by
  rcases Nat.lt_or_ge (s.pc.toNat + 1) 4096 with h | h
  · rw [State.fetch_of_le (by omega), Option.some_inj]
    exact ⟨fun e => ⟨h, e.symm⟩, fun e => e.2.symm⟩
  · rw [State.fetch_of_gt (by omega)]
    simp [Nat.not_lt.2 h]

theorem stepEvent_eq_some {s : State} {e : Event} : stepEvent s = some e ↔
    s.phase ≠ .halted ∧ ∃ op, s.fetch = some op ∧ eventOf (decode op) = some e := by
  by_cases h : s.phase = .halted
  · simp [stepEvent_halted h, h]
  · simp [stepEvent_of_alive h, h, Option.bind_eq_some_iff]

/-- Settles O45: the event of a step is that of the fetched word, and that of a word is by its family. -/
theorem onlyUnimplementedWordsEmitEvents : Obligations.OnlyUnimplementedWordsEmitEvents := by
  intro s tr e
  cases tr with
  | step =>
    rw [State.emits, stepEvent_eq_some]
    simp only [fetch_eq_some, eventOf_decode, eq_readWord_iff, true_and, and_assoc, exists_and_left]
  | reset | load | tick | observe => simp [State.emits]

end Sys2Proof.Machine
end

section
/-! The register table: an instruction reads and writes no register it is not listed with (spec/10_state.md R22). -/

namespace Sys2Proof.Machine

open Sys2Proof.Claims

theorem State.getV_setV_of_ne {s : State} {r q : Reg} {b : Byte} (h : ¬ r = q) : (s.setV r b).getV q = s.getV q := by
  rw [State.getV_setV, if_neg fun e => h e.symm]

theorem State.setV_setV_same (s : State) (r : Reg) (a b : Byte) : (s.setV r a).setV r b = s.setV r b := by
  simp only [State.setV, State.setRegs, Vector.set_set]

theorem State.setV_setV_comm (s : State) {r q : Reg} (h : ¬ r = q) (a b : Byte) :
    (s.setV r a).setV q b = (s.setV q b).setV r a := by
  simp only [State.setV, State.setRegs, Vector.set_comm _ _ (fun e => h (Fin.ext e))]

/-- Where `r` held `b` on entry, the result `u` is the result `t`, but for `r` still holding `b` where it is not
written. -/
def AgreesBut (written : Prop) (r : Reg) (b : Byte) (t u : State) : Prop :=
  (written → u = t) ∧ (¬ written → u = t.setV r b)

theorem AgreesBut.unwritten (r : Reg) (b : Byte) (t : State) : AgreesBut False r b t (t.setV r b) :=
  ⟨False.elim, fun _ => rfl⟩

theorem AgreesBut.congr {w w' : Prop} {r : Reg} {b : Byte} {t u : State} (h : AgreesBut w r b t u) (hw : w ↔ w') :
    AgreesBut w' r b t u :=
  propext hw ▸ h

theorem AgreesBut.mem_eq {w : Prop} {r : Reg} {b : Byte} {t u : State} (h : AgreesBut w r b t u) : u.mem = t.mem := by
  by_cases hw : w
  · rw [h.1 hw]
  · rw [h.2 hw]; rfl

/-- A further write of the same value to a register. -/
theorem AgreesBut.setV {w : Prop} {r : Reg} {b : Byte} {t u : State} (h : AgreesBut w r b t u) (x : Reg) (a : Byte) :
    AgreesBut (r = x ∨ w) r b (t.setV x a) (u.setV x a) := by
  by_cases hw : w
  · rw [h.1 hw]; exact ⟨fun _ => rfl, fun hn => absurd (.inr hw) hn⟩
  · rw [h.2 hw]
    by_cases hx : r = x
    · subst hx; exact ⟨fun _ => State.setV_setV_same _ _ _ _, fun hn => absurd (.inl rfl) hn⟩
    · exact ⟨fun hn => absurd hn (not_or.2 ⟨hx, hw⟩), fun _ => State.setV_setV_comm _ hx _ _⟩

theorem AgreesBut.write (r : Reg) (b : Byte) (t : State) (x : Reg) (a : Byte) :
    AgreesBut (r = x) r b (t.setV x a) ((t.setV r b).setV x a) :=
  ((AgreesBut.unwritten r b t).setV x a).congr (or_iff_left id)

theorem AgreesBut.loadRegs {r : Reg} {b : Byte} : ∀ (rs : List Reg) {w : Prop} {t u : State} (a : Nat),
    AgreesBut w r b t u → AgreesBut (r ∈ rs ∨ w) r b (t.loadRegs a rs) (u.loadRegs a rs)
  | [], _, _, _, _, h => h.congr (by simp)
  | q :: rs, _, t, u, a, h => by
    rw [State.loadRegs, State.loadRegs, h.mem_eq]
    exact (AgreesBut.loadRegs rs (a + 1) (h.setV q _)).congr (by rw [List.mem_cons, or_left_comm, or_assoc])

theorem skipIf_setV_next {c : Bool} {s t : State} (r : Reg) (b : Byte) (h : skipIf c s = .next t) :
    ∃ u, skipIf c (s.setV r b) = .next u ∧ AgreesBut False r b t u := by
  cases c <;> cases h <;> exact ⟨_, rfl, .unwritten r b _⟩

/-- A register the instruction does not read has no influence (R22). -/
theorem exec_setV_unread {i : Instr} {s t : State} {r : Reg} (b : Byte) (h : exec i s = .next t)
    (hr : ¬ readsReg i r) : ∃ u, exec i (s.setV r b) = .next u ∧ AgreesBut (writesReg i r) r b t u := by
  cases i
  case cls | jp | ldI | unimpl => cases h; exact ⟨_, rfl, .unwritten r b _⟩
  case ret =>
    obtain ⟨k, top, rfl⟩ := execRet_next h
    exact ⟨_, execRet_of_some top, .unwritten r b _⟩
  case call =>
    obtain ⟨k, free, rfl⟩ := execCall_next h
    exact ⟨_, execCall_of_some free, .unwritten r b _⟩
  case seImm x kk | sneImm x kk =>
    simp only [exec, execSeImm, execSneImm, State.getV_setV_of_ne hr]
    exact skipIf_setV_next r b h
  case seReg x y | sneReg x y =>
    obtain ⟨hx, hy⟩ := not_or.1 hr
    simp only [exec, execSeReg, execSneReg, State.getV_setV_of_ne hx, State.getV_setV_of_ne hy]
    exact skipIf_setV_next r b h
  case jpV0 | ldDTVx | ldSTVx | addI =>
    cases h
    refine ⟨_, rfl, ?_⟩
    rw [State.getV_setV_of_ne hr]
    exact .unwritten r b _
  case ldImm | ldVxDT => cases h; exact ⟨_, rfl, .write r b s _ _⟩
  case addImm x kk | ldReg x y =>
    cases h
    refine ⟨_, rfl, ?_⟩
    rw [State.getV_setV_of_ne hr]
    exact .write r b s x _
  case orReg x y | andReg x y | xorReg x y =>
    cases h
    obtain ⟨hx, hy⟩ := not_or.1 hr
    refine ⟨_, rfl, ?_⟩
    rw [State.getV_setV_of_ne hx, State.getV_setV_of_ne hy]
    exact .write r b s x _
  case addReg x y =>
    cases h
    obtain ⟨hx, hy⟩ := not_or.1 hr
    refine ⟨_, rfl, ?_⟩
    rw [State.getV_setV_of_ne hx, State.getV_setV_of_ne hy]
    exact ((AgreesBut.write r b s x _).setV 15 _).congr or_comm
  case subReg x y | subnReg x y =>
    cases h
    obtain ⟨hx, hy⟩ := not_or.1 hr
    refine ⟨_, rfl, ?_⟩
    rw [State.getV_setV_of_ne hx, State.getV_setV_of_ne hy]
    exact (AgreesBut.write r b s 15 _).setV x _
  case shr x y | shl x y =>
    cases h
    refine ⟨_, rfl, ?_⟩
    rw [State.getV_setV_of_ne hr]
    exact (AgreesBut.write r b s 15 _).setV x _
  case drw x y n =>
    obtain ⟨good, rfl⟩ := execDrw_next h
    obtain ⟨hx, hy⟩ := not_or.1 hr
    refine ⟨_, execDrw_of_good good, ?_⟩
    rw [State.getV_setV_of_ne hx, State.getV_setV_of_ne hy]
    exact .write r b (s.setDisp _) 15 _
  case ldB x =>
    obtain ⟨inside, rfl⟩ := guardRange_next h
    refine ⟨_, guardRange_of_le inside, ?_⟩
    rw [State.getV_setV_of_ne hr]
    exact .unwritten r b _
  case ldMemVx x =>
    obtain ⟨inside, rfl⟩ := guardRange_next h
    have same : (regsUpTo x).map (s.setV r b).getV = (regsUpTo x).map s.getV :=
      List.map_congr_left fun q hq => State.getV_setV_of_ne fun e => hr (e ▸ (mem_regsUpTo x q).1 hq)
    refine ⟨_, guardRange_of_le inside, ?_⟩
    rw [same]
    exact .unwritten r b _
  case ldVxMem x =>
    obtain ⟨inside, rfl⟩ := guardRange_next h
    refine ⟨_, guardRange_of_le inside, ?_⟩
    exact (AgreesBut.loadRegs _ _ (.unwritten r b s)).congr (by rw [or_false, mem_regsUpTo]; rfl)

/-- A register the instruction does not write keeps its value (R22). -/
theorem exec_getV_unwritten {i : Instr} {s t : State} {r : Reg} (h : exec i s = .next t) (hw : ¬ writesReg i r) :
    t.getV r = s.getV r := by
  cases i
  case ret => obtain ⟨k, -, rfl⟩ := execRet_next h; rfl
  case call => obtain ⟨k, -, rfl⟩ := execCall_next h; rfl
  case seImm | sneImm | seReg | sneReg => cases (skipIf_eq _ _).symm.trans h; rfl
  case ldImm | addImm | ldReg | orReg | andReg | xorReg | ldVxDT =>
    cases h
    exact (State.getV_setV ..).trans (if_neg hw)
  case addReg | subReg | subnReg | shr | shl =>
    cases h
    obtain ⟨hx, hf⟩ := not_or.1 hw
    simp only [State.setFlag_eq, State.getV_setV, if_neg hx, if_neg hf]
  case drw x y n =>
    obtain ⟨-, rfl⟩ := execDrw_next h
    rw [State.drawSprite_eq]
    exact (State.getV_setV ..).trans (if_neg hw)
  case ldB | ldMemVx => obtain ⟨-, rfl⟩ := guardRange_next h; rfl
  case ldVxMem x =>
    obtain ⟨-, rfl⟩ := guardRange_next h
    exact (State.getV_loadRegs_upTo ..).trans (if_neg hw)
  all_goals cases h; rfl

theorem same_refl (part : Part) (s : State) : Same part s s := by
  cases part <;> simp [Same]

theorem allBut_setV (s : State) (r : Reg) (b : Byte) : AllBut [.v] s (s.setV r b) := by
  intro part hpart
  cases part <;> simp [Same] at hpart ⊢

/-- Settles O49: what is not written is kept, and what is not read agrees but for itself. -/
theorem registersFollowTheReadWriteTable : Obligations.RegistersFollowTheReadWriteTable := by
  refine fun i s t r h => ⟨exec_getV_unwritten h, fun hr b => ?_⟩
  obtain ⟨u, hu, hwritten, hunwritten⟩ := exec_setV_unread b h hr
  by_cases hw : writesReg i r
  · obtain rfl := hwritten hw
    exact ⟨u, hu, fun part _ => same_refl part u, fun _ _ => rfl, fun _ => rfl, fun hn => absurd hw hn⟩
  · obtain rfl := hunwritten hw
    have others : RegsBut [r] t (t.setV r b) := fun q hq =>
      State.getV_setV_of_ne fun e => hq (List.mem_singleton.2 e.symm)
    exact ⟨_, hu, allBut_setV t r b, others, fun h => absurd h hw, fun _ => (State.getV_setV ..).trans (if_pos rfl)⟩

end Sys2Proof.Machine
end

section
/-! The pin-level binding: an edge is the loads, then the step, then the tick (spec/10_state.md R45). -/

namespace Sys2Proof.Machine

open Sys2Proof.Claims

theorem clockEdge_of_rst {p : PinsIn} {s : State} (h : p.rst = true) :
    ∃ o, clockEdge p s = some (State.reset, o) ∧ o.unimpl = none := by
  have legal : p.legal s = true := by simp [PinsIn.legal, h]
  rw [clockEdge, if_pos legal, h]
  exact ⟨_, rfl, rfl⟩

/-- An edge without `rst`: the transactions of the pins, in order. -/
theorem clockEdge_of_legal {p : PinsIn} {s : State} (h : p.rst = false) (legal : p.legal s = true) :
    ∃ o, clockEdge p s = some (runSchedule s (pinTransactions p), o) ∧
      o.unimpl = (eventsOf s (pinTransactions p)).head?.map eventWord := by
  rw [clockEdge, if_pos legal, h]
  exact ⟨_, rfl, rfl⟩

theorem legal_iff {p : PinsIn} {s : State} (h : p.rst = false) : p.legal s = true ↔
    s.phase ≠ .load ∨ ¬ (p.loadEn = true ∧ p.loadFail = true ∨ p.loadEn = true ∧ p.stepEn = true ∨
      p.loadFail = true ∧ p.stepEn = true) := by
  simp only [PinsIn.legal, h, Bool.false_or, Bool.or_eq_true, bne_iff_ne, Bool.not_eq_true', Bool.eq_false_iff, ne_eq,
    Bool.and_eq_true, or_assoc]

/-- The transactions of `load_en` and `load_fail`. -/
def loadTransactions (p : PinsIn) : List Transaction :=
  (if p.loadEn then [.load [p.loadData] p.loadAddr.toNat memSize] else []) ++
  (if p.loadFail then [.load [0] memSize memSize] else [])

/-- The transactions of `step_en` and `tick_en`. -/
def runTransactions (stepEn tickEn : Bool) : List Transaction :=
  (if stepEn then [.step] else []) ++ (if tickEn then [.tick] else [])

theorem pinTransactions_eq (p : PinsIn) :
    pinTransactions p = loadTransactions p ++ runTransactions p.stepEn p.tickEn := by
  simp only [pinTransactions, loadTransactions, runTransactions, List.append_assoc]

theorem runSchedule_append : ∀ (ts us : List Transaction) (s : State),
    runSchedule s (ts ++ us) = runSchedule (runSchedule s ts) us
  | [], _, _ => rfl
  | t :: ts, us, s => runSchedule_append ts us (s.after t)

theorem eventsOf_append : ∀ (ts us : List Transaction) (s : State),
    eventsOf s (ts ++ us) = eventsOf s ts ++ eventsOf (runSchedule s ts) us
  | [], _, _ => rfl
  | t :: ts, us, s => by
    rw [List.cons_append, eventsOf, eventsOf, eventsOf_append ts us (s.after t), List.append_assoc, runSchedule]

/-- Outside `LOAD` phase a load does nothing (R70). -/
theorem after_load_refused {s : State} (h : s.phase ≠ .load) (bs : List Byte) (off lim : Nat) :
    s.after (.load bs off lim) = s := by
  obtain ⟨-, hl⟩ | ⟨hp, -⟩ | ⟨hp, -⟩ := load_cases bs off lim s
  · rw [State.after, hl]; rfl
  · exact absurd hp h
  · exact absurd hp h

theorem eventsOf_loadTransactions (p : PinsIn) (s : State) : eventsOf s (loadTransactions p) = [] := by
  unfold loadTransactions
  cases p.loadEn <;> cases p.loadFail <;> rfl

theorem runSchedule_loadTransactions_idle {p : PinsIn} {s : State}
    (h : s.phase ≠ .load ∨ p.loadEn = false ∧ p.loadFail = false) : runSchedule s (loadTransactions p) = s := by
  unfold loadTransactions
  obtain h | ⟨hen, hfail⟩ := h
  · cases p.loadEn <;> cases p.loadFail <;> simp [runSchedule, after_load_refused h]
  · rw [hen, hfail]; rfl

theorem runSchedule_runTransactions (s : State) (stepEn tickEn : Bool) :
    runSchedule s (runTransactions stepEn tickEn) = ticked tickEn (stepped stepEn s) := by
  cases stepEn <;> cases tickEn <;> rfl

theorem head?_eventsOf_runTransactions (s : State) (stepEn tickEn : Bool) :
    (eventsOf s (runTransactions stepEn tickEn)).head? = if stepEn then stepEvent s else none := by
  unfold runTransactions
  cases stepEn
  · cases tickEn <;> rfl
  · cases tickEn <;> simp [eventsOf, State.emits]

/-- An edge without `rst`: the loads, which emit nothing, then the step and the tick. -/
theorem clockEdge_eq {p : PinsIn} {s : State} (h : p.rst = false) (legal : p.legal s = true) :
    ∃ o, clockEdge p s = some (ticked p.tickEn (stepped p.stepEn (runSchedule s (loadTransactions p))), o) ∧
      o.unimpl = if p.stepEn then (stepEvent (runSchedule s (loadTransactions p))).map eventWord else none := by
  obtain ⟨o, hedge, hevent⟩ := clockEdge_of_legal h legal
  refine ⟨o, ?_, ?_⟩
  · rw [hedge, pinTransactions_eq, runSchedule_append, runSchedule_runTransactions]
  · rw [hevent, pinTransactions_eq, eventsOf_append, eventsOf_loadTransactions, List.nil_append,
      head?_eventsOf_runTransactions]
    split <;> rfl

theorem runSchedule_loadTransactions_byte {p : PinsIn} {s : State} (hs : s.phase = .load) (hen : p.loadEn = true)
    (hfail : p.loadFail = false) :
    runSchedule s (loadTransactions p) = { s with mem := s.mem.write p.loadAddr.toNat p.loadData } := by
  have lt := p.loadAddr.isLt
  have copied : load [p.loadData] p.loadAddr.toNat memSize s =
      .next (s.setMem (s.mem.write p.loadAddr.toNat p.loadData)) := by
    obtain ⟨hne, -⟩ | ⟨-, hgt, -⟩ | ⟨-, -, hload⟩ := load_cases [p.loadData] p.loadAddr.toNat memSize s
    · exact absurd hs hne
    · rw [List.length_singleton, memSize, Nat.min_self] at hgt; omega
    · exact hload
  rw [loadTransactions, hen, hfail]
  show stateAfter s (load _ _ _ s) = _
  rw [copied]; rfl

theorem runSchedule_loadTransactions_fail {p : PinsIn} {s : State} (hs : s.phase = .load) (hen : p.loadEn = false)
    (hfail : p.loadFail = true) :
    runSchedule s (loadTransactions p) = s.enterFault .outOfBounds 0 := by
  have failed : load [0] memSize memSize s = .fault (.outOfBounds (s.enterFault .outOfBounds 0)) := by
    obtain ⟨hne, -⟩ | ⟨-, -, hload⟩ | ⟨-, hle, -⟩ := load_cases [0] memSize memSize s
    · exact absurd hs hne
    · exact hload
    · exact absurd hle (by decide)
  rw [loadTransactions, hen, hfail]
  show stateAfter s (load _ _ _ s) = _
  rw [failed]; rfl

theorem ticked_halted {s : State} (h : s.phase = .halted) (b : Bool) : ticked b s = s := by
  cases b
  · rfl
  · exact tick_halted h

/-- Fault entry changes `PHASE` and `FAULT` only (R208, R209). -/
theorem allBut_enterFault (s : State) (c : FaultCause) (op : Word) :
    AllBut [.phase, .fault] s (s.enterFault c op) := by
  intro part hpart
  cases part <;> simp [Same, State.enterFault_eq] at hpart ⊢

/-- The output pins show the state after the edge (R45). -/
theorem clockEdge_outputs {p : PinsIn} {s t : State} {o : PinsOut} (h : clockEdge p s = some (t, o)) :
    o.busy = false ∧ (o.halted = true ↔ t.phase = .halted) ∧ o.faultCode = t.fault.code ∧ o.faultOp = t.fault.op ∧
      o.dispLit = t.disp.lit p.dispX.toFin p.dispY.toFin := by
  unfold clockEdge at h
  split at h <;> cases h
  exact ⟨rfl, beq_iff_eq, rfl, rfl, rfl⟩

/-- Settles O55: one case per clause; what the loads of the edge do decides each. -/
theorem clockEdgePerformsTransactions : Obligations.ClockEdgePerformsTransactions := by
  intro p s
  refine ⟨clockEdge_of_rst, fun hr hidle => ?_, fun hr hs hen hfail hstep => ?_, fun hr hs hen hfail hstep => ?_,
    fun hr hs htwo => ?_, fun t o => clockEdge_outputs⟩
  · have legal : p.legal s = true := (legal_iff hr).2 (hidle.imp_right fun ⟨hen, hfail⟩ => by simp [hen, hfail])
    obtain ⟨o, hedge, hevent⟩ := clockEdge_eq hr legal
    rw [runSchedule_loadTransactions_idle hidle] at hedge hevent
    exact ⟨o, hedge, hevent⟩
  · have legal : p.legal s = true := (legal_iff hr).2 (.inr (by simp [hfail, hstep]))
    obtain ⟨o, hedge, hevent⟩ := clockEdge_eq hr legal
    rw [runSchedule_loadTransactions_byte hs hen hfail, hstep] at hedge
    rw [hstep] at hevent
    exact ⟨o, hedge, hevent⟩
  · have legal : p.legal s = true := (legal_iff hr).2 (.inr (by simp [hen, hstep]))
    obtain ⟨o, hedge, hevent⟩ := clockEdge_eq hr legal
    have frozen : ticked p.tickEn (stepped false (s.enterFault .outOfBounds 0)) = s.enterFault .outOfBounds 0 :=
      ticked_halted rfl _
    rw [runSchedule_loadTransactions_fail hs hen hfail, hstep, frozen] at hedge
    rw [hstep] at hevent
    exact ⟨_, o, hedge, allBut_enterFault s _ _, rfl, rfl, hevent⟩
  · exact if_neg fun legal => ((legal_iff hr).1 legal).elim (absurd hs) (absurd htwo)

end Sys2Proof.Machine
end

section
/-! The step of a running core (spec/40_control_flow.md R110, R112, R63). -/

namespace Sys2Proof.Machine

/-- Settles O12: the word of the two bytes is the one fetched, and `PC` does not wrap below 4096. -/
theorem stepRunsTheDecodedInstruction : Obligations.StepRunsTheDecodedInstruction := by
  intro s op running inside bytes
  obtain rfl := eq_readWord_iff.1 bytes
  have alive : s.phase ≠ .halted := by rw [running]; decide
  have ready : s.beginRun.advance = { s with pc := s.pc + 2 } := by
    rw [State.beginRun_eq, ← running]; rfl
  refine ⟨rfl, ?_, toNat_add_two (by omega)⟩
  rw [step_exec alive (fetch_eq_some.2 ⟨inside, rfl⟩), ready]

end Sys2Proof.Machine
end

section
/-! Frame rules: one per update of a state element, composed along the updates of an instruction. -/

namespace Sys2Proof.Claims

open Sys2Proof.Machine

theorem AllBut.refl {ps : List Part} {s : State} : AllBut ps s s := fun p _ => same_refl p s

section
variable {ps : List Part} {s t : State} (h : AllBut ps s t)
include h

theorem AllBut.setMem (a : Memory) (hp : .mem ∈ ps := by simp) : AllBut ps s (t.setMem a) := by
  intro p hn
  cases p with
  | mem => exact absurd hp hn
  | _ => exact h _ hn

theorem AllBut.setRegs (a : Vector Byte 16) (hp : .v ∈ ps := by simp) : AllBut ps s (t.setRegs a) := by
  intro p hn
  cases p with
  | v => exact absurd hp hn
  | _ => exact h _ hn

theorem AllBut.setV (r : Reg) (b : Byte) (hp : .v ∈ ps := by simp) : AllBut ps s (t.setV r b) := h.setRegs _ hp

theorem AllBut.setI (a : Word) (hp : .i ∈ ps := by simp) : AllBut ps s (t.setI a) := by
  intro p hn
  cases p with
  | i => exact absurd hp hn
  | _ => exact h _ hn

theorem AllBut.setPC (a : Word) (hp : .pc ∈ ps := by simp) : AllBut ps s (t.setPC a) := by
  intro p hn
  cases p with
  | pc => exact absurd hp hn
  | _ => exact h _ hn

theorem AllBut.setSP (a : Option (Fin 16)) (hp : .sp ∈ ps := by simp) : AllBut ps s (t.setSP a) := by
  intro p hn
  cases p with
  | sp => exact absurd hp hn
  | _ => exact h _ hn

theorem AllBut.setStack (a : Vector Word 16) (hp : .stack ∈ ps := by simp) : AllBut ps s (t.setStack a) := by
  intro p hn
  cases p with
  | stack => exact absurd hp hn
  | _ => exact h _ hn

theorem AllBut.setDT (a : Byte) (hp : .dt ∈ ps := by simp) : AllBut ps s (t.setDT a) := by
  intro p hn
  cases p with
  | dt => exact absurd hp hn
  | _ => exact h _ hn

theorem AllBut.setST (a : Byte) (hp : .st ∈ ps := by simp) : AllBut ps s (t.setST a) := by
  intro p hn
  cases p with
  | st => exact absurd hp hn
  | _ => exact h _ hn

theorem AllBut.setDisp (a : Display) (hp : .disp ∈ ps := by simp) : AllBut ps s (t.setDisp a) := by
  intro p hn
  cases p with
  | disp => exact absurd hp hn
  | _ => exact h _ hn

end

end Sys2Proof.Claims
end

section
/-! Bytes written at ascending addresses: what each address then holds, and when writes may be repeated or exchanged
(spec/20_memory.md R64, R73). -/

namespace Sys2Proof.Machine

/-- The byte at offset `k` of the bytes written. -/
theorem Memory.read_writeBytes_inside {bs : List Byte} {m : Memory} {a k : Nat} (ha : a + bs.length ≤ memSize)
    (hm : m.wf = true) (h : k < bs.length) : (m.writeBytes a bs).read (a + k) = bs[k] := by
  rw [Memory.read_writeBytes ha hm, if_pos (Nat.le_add_right a k), Nat.add_sub_cancel_left,
    List.getD_eq_getElem _ _ h]

/-- A byte after a store of `n + 1` bytes whose values are `f 0` to `f n`. -/
theorem Memory.toNat_read_writeBytes {bs : List Byte} {m : Memory} {a n : Nat} {f : Nat → Nat}
    (ha : a + bs.length ≤ memSize) (hm : m.wf = true) (hn : bs.length = n + 1)
    (hf : ∀ k, ∀ h : k < bs.length, bs[k].toNat = f k) (c : Nat) :
    ((m.writeBytes a bs).read c).toNat =
      (if a ≤ c ∧ c ≤ a + n then some (f (c - a)) else none).getD (m.read c).toNat := by
  by_cases hc : a ≤ c ∧ c ≤ a + n
  · obtain ⟨k, rfl⟩ := Nat.exists_eq_add_of_le hc.1
    rw [if_pos hc, Memory.read_writeBytes_inside ha hm (by omega), hf, Nat.add_sub_cancel_left, Option.getD_some]
  · rw [if_neg hc, Memory.read_writeBytes_outside ha hm (by omega), Option.getD_none]

/-- Writing the same bytes again changes nothing. -/
theorem Memory.writeBytes_writeBytes_same {m : Memory} {a : Nat} {bs : List Byte} (ha : a + bs.length ≤ memSize)
    (hm : m.wf = true) : (m.writeBytes a bs).writeBytes a bs = m.writeBytes a bs := by
  have hw := Memory.wf_writeBytes ha hm
  refine Memory.ext (Memory.wf_writeBytes ha hw) hw fun c => ?_
  by_cases hc : a ≤ c ∧ c < a + bs.length
  · obtain ⟨k, rfl⟩ := Nat.exists_eq_add_of_le hc.1
    rw [Memory.read_writeBytes_inside ha hw (by omega), Memory.read_writeBytes_inside ha hm (by omega)]
  · exact Memory.read_writeBytes_outside ha hw (by omega)

/-- Bytes of disjoint ranges may be written in either order. -/
theorem Memory.writeBytes_comm {m : Memory} {a a' : Nat} {bs cs : List Byte} (ha : a + bs.length ≤ memSize)
    (ha' : a' + cs.length ≤ memSize) (hm : m.wf = true)
    (disjoint : a + bs.length ≤ a' ∨ a' + cs.length ≤ a) :
    (m.writeBytes a bs).writeBytes a' cs = (m.writeBytes a' cs).writeBytes a bs := by
  have hb := Memory.wf_writeBytes ha hm
  have hc := Memory.wf_writeBytes ha' hm
  refine Memory.ext (Memory.wf_writeBytes ha' hb) (Memory.wf_writeBytes ha hc) fun e => ?_
  by_cases inB : a ≤ e ∧ e < a + bs.length
  · obtain ⟨k, rfl⟩ := Nat.exists_eq_add_of_le inB.1
    rw [Memory.read_writeBytes_outside ha' hb (by omega), Memory.read_writeBytes_inside ha hm (by omega),
      Memory.read_writeBytes_inside ha hc (by omega)]
  · rw [Memory.read_writeBytes_outside ha hc (by omega), Memory.read_writeBytes ha' hb, Memory.read_writeBytes ha' hm,
      Memory.read_writeBytes_outside ha hm (by omega)]

end Sys2Proof.Machine
end

section
/-! What a completing instruction leaves unchanged, and what the next fetch then reads (spec/20_memory.md R66, R77). -/

namespace Sys2Proof.Machine

open Sys2Proof.Claims

/-- Settles O48: the updates of an instruction that completes, one frame rule for each. -/
theorem instructionsChangeOnlyTheirParts : Obligations.InstructionsChangeOnlyTheirParts := by
  intro i s t h
  cases i <;> rw [writesPart]
  case cls => cases h; exact AllBut.refl.setDisp _
  case ret => obtain ⟨k, -, rfl⟩ := execRet_next h; exact (AllBut.refl.setPC _).setSP _
  case call => obtain ⟨k, -, rfl⟩ := execCall_next h; exact ((AllBut.refl.setSP _).setStack _).setPC _
  case jp | jpV0 => cases h; exact AllBut.refl.setPC _
  case seImm | sneImm | seReg | sneReg => cases (skipIf_eq _ _).symm.trans h; exact AllBut.refl.setPC _
  case ldImm | addImm | ldReg | orReg | andReg | xorReg | ldVxDT => cases h; exact AllBut.refl.setV _ _
  case addReg | subReg | subnReg | shr | shl => cases h; exact (AllBut.refl.setV _ _).setV _ _
  case ldVxMem =>
    obtain ⟨-, rfl⟩ := guardRange_next h
    rw [State.loadRegs_eq]
    exact AllBut.refl.setRegs _
  case drw => obtain ⟨-, rfl⟩ := execDrw_next h; exact (AllBut.refl.setDisp _).setV _ _
  case ldI | addI => cases h; exact AllBut.refl.setI _
  case ldDTVx => cases h; exact AllBut.refl.setDT _
  case ldSTVx => cases h; exact AllBut.refl.setST _
  case ldB | ldMemVx => obtain ⟨-, rfl⟩ := guardRange_next h; exact AllBut.refl.setMem _
  case unimpl => cases h; exact AllBut.refl

theorem toNat_getElem_bcdDigits (b : Byte) : ∀ k, ∀ h : k < (bcdDigits b).length,
    (bcdDigits b)[k].toNat = decimalDigit b k
  | 0, _ | 1, _ | 2, _ => by
    have := b.isLt
    simp only [bcdDigits, decimalDigit, List.getElem_cons_zero, List.getElem_cons_succ, BitVec.toNat_ofNat]
    omega
  | _ + 3, h => absurd h (by simp [bcdDigits])

theorem getElem_map_regsUpTo (s : State) (x : Reg) (k : Nat) (h : k < ((regsUpTo x).map s.getV).length) :
    ((regsUpTo x).map s.getV)[k] = s.getV (Fin.ofNat 16 k) := by
  have hk : k ≤ x.val := by rw [List.length_map, length_regsUpTo] at h; omega
  have reg : (Fin.ofNat 16 k).val = k := Nat.mod_eq_of_lt (by omega)
  have entry := getElem_regsUpTo x (Fin.ofNat 16 k) (by omega)
  rw [reg] at entry
  rw [List.getElem_map, (List.getElem?_eq_some_iff.1 entry).2]

/-- A byte after an instruction: the one it stored, else the one from before (R64, R66). -/
theorem exec_toNat_read {i : Instr} {s t : State} (hm : s.mem.wf = true) (h : exec i s = .next t) (a : Nat) :
    (t.mem.read a).toNat = (storedByte i s a).getD (s.mem.read a).toNat := by
  have frame := instructionsChangeOnlyTheirParts i s t h .mem
  cases i
  case ldB x =>
    obtain ⟨inside, rfl⟩ := guardRange_next h
    exact Memory.toNat_read_writeBytes inside hm rfl (toNat_getElem_bcdDigits _) a
  case ldMemVx x =>
    obtain ⟨inside, rfl⟩ := guardRange_next h
    have length : ((regsUpTo x).map s.getV).length = x.val + 1 := by rw [List.length_map, length_regsUpTo]
    exact Memory.toNat_read_writeBytes (length ▸ inside) hm length
      (fun k hk => congrArg _ (getElem_map_regsUpTo s x k hk)) a
  all_goals exact congrArg _ (frame (by simp [writesPart]) a)

/-- Settles O34: both bytes of the fetched word are read in the memory the instruction left. -/
theorem storedCodeIsFetchedNext : Obligations.StoredCodeIsFetchedNext := by
  intro i s t hm h inside
  refine ⟨_, fetch_eq_some.2 ⟨inside, rfl⟩, ?_⟩
  rw [eq_readWord_iff.2 rfl, exec_toNat_read hm h, exec_toNat_read hm h]

end Sys2Proof.Machine
end

section
/-! Loads before the run: the copy, the failure past the limit, and the refusal (spec/20_memory.md R70 to R73). -/

namespace Sys2Proof.Machine

open Sys2Proof.Claims

section
variable {s : State} {bs : List Byte} {off lim : Nat}

theorem load_refused (hs : s.phase ≠ .load) : load bs off lim s = .next s := by
  obtain ⟨-, h⟩ | ⟨hp, -⟩ | ⟨hp, -⟩ := load_cases bs off lim s
  · exact h
  · exact absurd hp hs
  · exact absurd hp hs

/-- A load that completes in `LOAD` phase: the bytes fit, and it copied them. -/
theorem load_eq_next (hs : s.phase = .load) {t : State} : load bs off lim s = .next t ↔
    off + bs.length ≤ min lim 4096 ∧ t = s.setMem (s.mem.writeBytes off bs) := by
  obtain ⟨hp, -⟩ | ⟨-, past, h⟩ | ⟨-, fits, h⟩ := load_cases bs off lim s
  · exact absurd hs hp
  · rw [h]
    exact ⟨nofun, fun e => absurd e.1 (by omega)⟩
  · rw [h]
    constructor
    · rintro ⟨⟩
      exact ⟨fits, rfl⟩
    · rintro ⟨-, rfl⟩
      rfl

theorem load_past_limit (hs : s.phase = .load) (past : min lim 4096 < off + bs.length) :
    ∃ h, load bs off lim s = .fault (.outOfBounds h) ∧ AllBut [.phase, .fault] s h ∧ h.phase = .halted ∧
      h.fault = ⟨1, 0⟩ := by
  obtain ⟨hp, -⟩ | ⟨-, -, h⟩ | ⟨-, fits, -⟩ := load_cases bs off lim s
  · exact absurd hs hp
  · exact ⟨_, h, allBut_enterFault s _ _, rfl, rfl⟩
  · omega

/-- A load that fits stores its bytes verbatim and changes nothing else. -/
theorem load_stores_verbatim (hs : s.phase = .load) (hm : s.mem.wf = true) (fits : off + bs.length ≤ min lim 4096) :
    ∃ t, load bs off lim s = .next t ∧ AllBut [.mem] s t ∧
      (∀ k, ∀ h : k < bs.length, t.mem.read (off + k) = bs[k]) ∧
      ∀ a, a < off ∨ off + bs.length ≤ a → t.mem.read a = s.mem.read a := by
  have ha := fits.trans (Nat.min_le_right _ _)
  exact ⟨_, (load_eq_next hs).2 ⟨fits, rfl⟩, AllBut.refl.setMem _,
    fun _ hk => Memory.read_writeBytes_inside ha hm hk, fun _ => Memory.read_writeBytes_outside ha hm⟩

end

/-- Settles O51: `LoadProgram` is the load at 0x200 with the limit 4096. -/
theorem loadProgramStoresVerbatim : Obligations.LoadProgramStoresVerbatim := by
  refine fun s bytes hs hm => ⟨fun fits => load_stores_verbatim hs hm fits, fun past => ?_⟩
  obtain ⟨h, fault, frame, -⟩ := load_past_limit (lim := memSize) hs past
  exact ⟨h, fault, frame⟩

/-- Settles O56: `LoadFont` is the load at `FONT_BASE` with the limit 0x200. -/
theorem loadFontStaysBelowTheProgram : Obligations.LoadFontStaysBelowTheProgram := by
  intro c s bytes hm
  exact ⟨load_refused, fun hs fits => load_stores_verbatim hs hm fits, fun hs past => load_past_limit hs past⟩

/-- Settles O52: one of the three cases of a load for each clause. -/
theorem loadCopiesAllOrNothing : Obligations.LoadCopiesAllOrNothing := by
  intro s bytes offset limit hm hlim
  have bound : min limit 4096 = limit := Nat.min_eq_left hlim
  refine ⟨load_refused, fun hs past => load_past_limit hs (by rwa [bound]), fun hs fits => ?_⟩
  exact ⟨_, (load_eq_next hs).2 ⟨by rwa [bound], rfl⟩, AllBut.refl.setMem _,
    fun _ => Memory.read_writeBytes (fits.trans hlim) hm⟩

/-- Settles O53: a load that completes is a write of its bytes, and such writes are idempotent and, where disjoint,
commute. -/
theorem loadsAreIdempotentAndCommute : Obligations.LoadsAreIdempotentAndCommute := by
  intro s t bs cs off lim off' lim' hm hs h
  obtain ⟨fits, rfl⟩ := (load_eq_next hs).1 h
  have ha := fits.trans (Nat.min_le_right _ _)
  have loading : ∀ m, (s.setMem m).phase = .load := fun _ => hs
  refine ⟨(load_eq_next (loading _)).2 ⟨fits, ?_⟩, fun disjoint u hu => ?_⟩
  · exact congrArg s.setMem (Memory.writeBytes_writeBytes_same ha hm).symm
  · obtain ⟨fits', rfl⟩ := (load_eq_next (loading _)).1 hu
    have ha' := fits'.trans (Nat.min_le_right _ _)
    exact ⟨_, (load_eq_next hs).2 ⟨fits', rfl⟩,
      (load_eq_next (loading _)).2 ⟨fits, congrArg s.setMem (Memory.writeBytes_comm ha ha' hm disjoint)⟩⟩

end Sys2Proof.Machine
end

section
/-! The opcode table against the decoder: the bits a mask selects are those the decoder of the family looks at
(spec/30_encoding.md R95 to R97). -/

namespace Sys2Proof.Machine

open Sys2Proof.Claims

/-- The bits of a word that select its operation: the family and, by family, nothing more, the low nibble, the low byte,
or all of the word (R95). -/
def selectorMask (op : Word) : Word :=
  match (famOf op).toNat with
  | 0x0 => 0xFFFF#16
  | 0x5 | 0x8 | 0x9 => 0xF00F#16
  | 0xF => 0xF0FF#16
  | _ => 0xF000#16

/-! ## Two words that agree on a mask -/

section
variable {op w : Word}

theorem eq_of_and_whole (h : op &&& 0xFFFF#16 = w &&& 0xFFFF#16) : op = w :=
  (BitVec.and_allOnes (x := op)).symm.trans (h.trans (BitVec.and_allOnes (x := w)))

theorem famOf_eq_of_and_family (h : op &&& 0xF000#16 = w &&& 0xF000#16) : famOf op = famOf w := by
  rw [← BitVec.toNat_inj, toNat_and_family, toNat_and_family] at h
  rw [← BitVec.toNat_inj, toNat_famOf, toNat_famOf]
  omega

theorem nOf_eq_of_and_nibble (h : op &&& 0xF00F#16 = w &&& 0xF00F#16) : nOf op = nOf w := by
  rw [← BitVec.toNat_inj, toNat_and_nibble, toNat_and_nibble] at h
  rw [← BitVec.toNat_inj, toNat_nOf, toNat_nOf]
  omega

theorem kkOf_eq_of_and_byte (h : op &&& 0xF0FF#16 = w &&& 0xF0FF#16) : kkOf op = kkOf w := by
  rw [← BitVec.toNat_inj, toNat_and_byte, toNat_and_byte] at h
  rw [← BitVec.toNat_inj, toNat_kkOf, toNat_kkOf]
  omega

/-- A mask selects no more than a wider one. -/
theorem and_eq_of_and_eq_wider {m n : Word} (wider : n &&& m = m) (h : op &&& n = w &&& n) : op &&& m = w &&& m := by
  rw [← wider, ← BitVec.and_assoc, h, BitVec.and_assoc]

theorem selectorMask_and_family (w : Word) : selectorMask w &&& 0xF000#16 = 0xF000#16 := by
  unfold selectorMask
  split <;> rfl

/-! ## The mnemonic a word decodes to -/

/-- Families 5 and 9: only the low nibble 0 is implemented. -/
theorem mnemonic_ite_nOf_congr {i j : Instr} (hij : mnemonic i = mnemonic j) (h : nOf op = nOf w) :
    mnemonic (if nOf op = 0 then i else .unimpl op) = mnemonic (if nOf w = 0 then j else .unimpl w) := by
  rw [h]
  split
  · exact hij
  · rfl

theorem mnemonic_decodeFamily8_congr (h : nOf op = nOf w) :
    mnemonic (decodeFamily8 op) = mnemonic (decodeFamily8 w) := by
  unfold decodeFamily8
  rw [h]
  split <;> rfl

theorem mnemonic_decodeFamilyF_congr (h : kkOf op = kkOf w) :
    mnemonic (decodeFamilyF op) = mnemonic (decodeFamilyF w) := by
  unfold decodeFamilyF
  rw [h]
  split <;> rfl

/-- Words that agree on the selecting bits decode to instructions of one mnemonic. -/
theorem mnemonic_decode_congr (h : op &&& selectorMask w = w &&& selectorMask w) :
    mnemonic (decode op) = mnemonic (decode w) := by
  have family := famOf_eq_of_and_family (and_eq_of_and_eq_wider (selectorMask_and_family w) h)
  have lt := (famOf w).isLt
  unfold selectorMask at h
  unfold decode
  rw [family]
  generalize (famOf w).toNat = f at h lt
  match f, lt with
  | 0x0, _ => rw [eq_of_and_whole h]
  | 0x5, _ | 0x9, _ => exact mnemonic_ite_nOf_congr rfl (nOf_eq_of_and_nibble h)
  | 0x8, _ => exact mnemonic_decodeFamily8_congr (nOf_eq_of_and_nibble h)
  | 0xF, _ => exact mnemonic_decodeFamilyF_congr (kkOf_eq_of_and_byte h)
  | 0x1, _ | 0x2, _ | 0x3, _ | 0x4, _ | 0x6, _ | 0x7, _ | 0xA, _ | 0xB, _ | 0xC, _ | 0xD, _ | 0xE, _ => rfl
  | _ + 16, h => omega

end

/-! ## The rows of the table -/

/-- The mask of a row is what selects the operation of its value, and its value decodes to its mnemonic (R96). -/
theorem opcodeTable_rows : ∀ row ∈ opcodeTable, selectorMask row.value = row.mask ∧
    row.value &&& row.mask = row.value ∧ mnemonic (decode row.value) = row.mnemonic := by decide

/-- The values of two rows differ in a bit that both masks select. -/
theorem opcodeTable_values_differ : ∀ p ∈ opcodeTable, ∀ q ∈ opcodeTable,
    p.value &&& q.mask = q.value &&& p.mask → p = q := by decide

/-- Settles O9: a claimed word agrees with the value of the row on the selecting bits; where no row claims a word and
where the decoder reports one is the same condition on its family. -/
theorem decoderAgreesWithOpcodeTable : Obligations.DecoderAgreesWithOpcodeTable := by
  refine fun op => ⟨fun row hrow claimed => ?_, ?_⟩
  · obtain ⟨selects, value, name⟩ := opcodeTable_rows row hrow
    rw [← name]
    apply mnemonic_decode_congr
    rw [selects, claimed, value]
  · rw [unclaimed_iff, decode_eq_unimpl, eq_self_iff_true, true_and]

/-- Settles O10: on the bits that both masks select, the values of the two rows are those of the word, hence equal. -/
theorem opcodePatternsArePairwiseDisjoint : Obligations.OpcodePatternsArePairwiseDisjoint := by
  intro op p hp q hq claimsP claimsQ
  apply opcodeTable_values_differ p hp q hq
  calc p.value &&& q.mask = op &&& p.mask &&& q.mask := by rw [claimsP]
    _ = op &&& q.mask &&& p.mask := by ac_rfl
    _ = q.value &&& p.mask := by rw [claimsQ]

/-- Settles O11: the decoder is run on each word. -/
theorem writtenOutWordsDecode : Obligations.WrittenOutWordsDecode := by
  unfold Obligations.WrittenOutWordsDecode
  decide

end Sys2Proof.Machine
end

section
/-! Fetch, jumps, calls and skips: the word of each instruction, its target, and the call stack
(spec/40_control_flow.md R111 to R120). -/

namespace Sys2Proof.Machine

open Sys2Proof.Claims

/-- Settles O14: the fetch finds no word, so no event is emitted and the step is the fetch fault. -/
theorem fetchOutsideMemoryFaults : Obligations.FetchOutsideMemoryFaults := by
  intro s alive outside
  have noFetch : s.fetch = none := State.fetch_of_gt (by omega)
  refine ⟨?_, _, step_fetchFault alive noFetch, ?_, rfl, rfl⟩
  · rw [stepEvent_of_alive alive, noFetch, Option.bind_none]
  · -- beginning the run writes `PHASE` only, which the fault overwrites
    exact allBut_enterFault s .invalidAddressFetch 0

/-! ## The words of the instructions, by their format (R94, R96) -/

theorem encodes_of_decode {i : Instr} {n : Nat} (value : (encode i).toNat = n) (back : decode (encode i) = i) :
    Encodes i n := by
  subst value
  refine ⟨(encode i).isLt, rfl, ?_⟩
  rw [BitVec.ofNat_toNat, BitVec.setWidth_eq, back]

section
variable {i : Instr} (f : BitVec 4)

theorem encodes_wordA {a : BitVec 12} (format : encode i = wordA f a) (back : decode (wordA f a) = i) :
    Encodes i (0x1000 * f.toNat + a.toNat) :=
  encodes_of_decode (by rw [format, toNat_wordA]; omega) (format ▸ back)

theorem encodes_wordXK {x : Reg} {kk : Byte} (format : encode i = wordXK f x kk) (back : decode (wordXK f x kk) = i) :
    Encodes i (0x1000 * f.toNat + 0x100 * x.val + kk.toNat) :=
  encodes_of_decode (by rw [format, toNat_wordXK]; omega) (format ▸ back)

theorem encodes_wordXY {x y : Reg} (n : BitVec 4) (format : encode i = wordXY f x y n)
    (back : decode (wordXY f x y n) = i) :
    Encodes i (0x1000 * f.toNat + n.toNat + 0x100 * x.val + 0x10 * y.val) :=
  encodes_of_decode (by rw [format, toNat_wordXY]; omega) (format ▸ back)

end

/-! ## Jumps (R114, R120) -/

theorem toNat_zextAddr (a : BitVec 12) : (zextAddr a).toNat = a.toNat :=
  BitVec.toNat_setWidth_of_le (by decide)

theorem toNat_zextByte (b : Byte) : (zextByte b).toNat = b.toNat :=
  BitVec.toNat_setWidth_of_le (by decide)

/-- The sum of JP V0 does not wrap. -/
theorem toNat_jpV0 (a : BitVec 12) (b : Byte) : (zextAddr a + zextByte b).toNat = a.toNat + b.toNat := by
  rw [BitVec.toNat_add, toNat_zextAddr, toNat_zextByte]
  omega

/-- Settles O20: each jump is one write of `PC`, with a target that fits in it. -/
theorem jumpsSetPCUnchecked : Obligations.JumpsSetPCUnchecked := by
  refine fun nnn => ⟨encodes_wordA 0x1 rfl (by simp [decode]), encodes_wordA 0xB rfl (by simp [decode]), fun s => ?_⟩
  exact ⟨⟨_, rfl, toNat_zextAddr nnn, AllBut.refl.setPC _⟩, ⟨_, rfl, toNat_jpV0 nnn _, AllBut.refl.setPC _⟩⟩

/-! ## The call stack (R31, R32, R113, R115) -/

section
variable {s : State} {k : Fin 16}

/-- The entry a push goes to is the one above `SP`. -/
theorem spPush_eq_some : spPush s.sp = some k ↔ s.spValue + 1 = k.val := by
  refine ⟨fun h => by rw [spValue_of_spPush h]; omega, fun above => ?_⟩
  cases h : spPush s.sp with
  | none =>
    have full : s.spValue = 15 := (s.spValue_eq_coe 15).2 ((spPush_eq_none _).1 h)
    omega
  | some j =>
    have := spValue_of_spPush h
    rw [Option.some_inj, Fin.ext_iff]
    omega

theorem getElem_stack_setEntry (w : Word) (j : Fin 16) :
    (s.setEntry k w).stack[j] = if j = k then w else s.stack[j] := by
  simp only [State.setEntry_eq, State.setStack_stack, Fin.getElem_fin, Vector.getElem_set, Fin.ext_iff, eq_comm]

end

/-- Settles O17: the two outcomes of RET, by whether the stack holds an entry. -/
theorem retPopsTheReturnAddress : Obligations.RetPopsTheReturnAddress := by
  refine ⟨encodes_of_decode rfl (by decide), fun s k top => ?_, fun s empty => ?_⟩
  · refine ⟨_, execRet_of_some ((s.spValue_eq_coe k).1 top), rfl, ?_, (AllBut.refl.setPC _).setSP _⟩
    rw [spValue_setSP_spPop, top]
  · exact ⟨_, execRet_of_none (s.spValue_eq_neg_one.1 empty), allBut_enterFault s _ _⟩

/-- Settles O18: the two outcomes of CALL, by whether an entry is free. -/
theorem callPushesTheAdvancedPC : Obligations.CallPushesTheAdvancedPC := by
  refine fun nnn => ⟨encodes_wordA 0x2 rfl (by simp [decode]), fun s k free => ?_, fun s full => ?_⟩
  · refine ⟨_, execCall_of_some (spPush_eq_some.2 free), toNat_zextAddr nnn, free.symm, ?_, fun j hj => ?_,
      ((AllBut.refl.setSP _).setStack _).setPC _⟩
    · exact (getElem_stack_setEntry _ k).trans (if_pos rfl)
    · exact (getElem_stack_setEntry _ j).trans (if_neg hj)
  · have noEntry : spPush s.sp = none := (spPush_eq_none _).2 ((s.spValue_eq_coe 15).1 full)
    exact ⟨_, execCall_of_none noEntry, allBut_enterFault s _ _⟩

/-- After a call the top entry, one above the old `SP`, holds the advanced `PC`. -/
theorem execCall_top {nnn : BitVec 12} {s t : State} (h : execCall nnn s = .next t) :
    ∃ k, t.sp = some k ∧ t.stack[k] = s.pc ∧ s.spValue = k.val - 1 := by
  obtain ⟨k, free, rfl⟩ := execCall_next h
  exact ⟨k, rfl, (getElem_stack_setEntry _ k).trans (if_pos rfl), spValue_of_spPush free⟩

/-- Settles O19: RET pops the entry that CALL pushed, whatever `PC` holds by then. -/
theorem retUndoesCall : Obligations.RetUndoesCall := by
  intro nnn s t pc _ h
  obtain ⟨k, top, entry, below⟩ := execCall_top h
  refine ⟨_, execRet_of_some (s := t.setPC pc) top, entry, ?_⟩
  rw [spValue_setSP_spPop, below]

/-! ## Skips (R116 to R119, R97) -/

/-- A skip on a condition decided by `c` writes `PC` only, and advances it exactly when the condition holds. -/
theorem skipIf_spec {c : Bool} {p : Prop} [Decidable p] (s : State) (hc : c = true ↔ p) :
    ∃ t, skipIf c s = .next t ∧ AllBut [.pc] s t ∧ t.pc = if p then s.pc + 2 else s.pc :=
  ⟨_, skipIf_eq c s, AllBut.refl.setPC _, if_congr hc rfl rfl⟩

theorem byte_beq_iff {a b : Byte} : (a == b) = true ↔ a.toNat = b.toNat :=
  beq_iff_eq.trans BitVec.toNat_inj.symm

theorem byte_bne_iff {a b : Byte} : (a != b) = true ↔ a.toNat ≠ b.toNat :=
  bne_iff_ne.trans (not_congr BitVec.toNat_inj.symm)

/-- Settles O21: both are skips, on the comparison of the two bytes as numbers. -/
theorem skipsOnImmediate : Obligations.SkipsOnImmediate := by
  refine fun x kk => ⟨encodes_wordXK 0x3 rfl (by simp [decode]), encodes_wordXK 0x4 rfl (by simp [decode]), fun s => ?_⟩
  exact ⟨skipIf_spec s byte_beq_iff, skipIf_spec s byte_bne_iff⟩

/-- A word of family 5 or 9 whose low nibble is not 0 is unimplemented (D7). -/
theorem decode_register_skip_nibble {x y : Reg} {n fam : Nat} (lo : 1 ≤ n) (hi : n ≤ 15)
    (hfam : fam = 0x5000 ∨ fam = 0x9000) :
    decode (BitVec.ofNat 16 (fam + 0x100 * x.val + 0x10 * y.val + n)) =
      .unimpl (BitVec.ofNat 16 (fam + 0x100 * x.val + 0x10 * y.val + n)) := by
  generalize hop : fam + 0x100 * x.val + 0x10 * y.val + n = op
  have nibble : op % 16 ≠ 0 := by omega
  rw [decode_eq_unimpl, BitVec.toNat_ofNat, Nat.mod_eq_of_lt (by omega)]
  refine ⟨rfl, ?_⟩
  rcases hfam with rfl | rfl
  · rw [show op / 4096 = 0x5 by omega]; exact nibble
  · rw [show op / 4096 = 0x9 by omega]; exact nibble

/-- Settles O22: the same skips on two registers, and the words beside theirs. -/
theorem skipsOnRegisters : Obligations.SkipsOnRegisters := by
  refine fun x y => ⟨encodes_wordXY 0x5 0x0 rfl (by simp [decode]), encodes_wordXY 0x9 0x0 rfl (by simp [decode]),
    fun _ lo hi _ => decode_register_skip_nibble lo hi, fun s => ?_⟩
  exact ⟨skipIf_spec s byte_beq_iff, skipIf_spec s byte_bne_iff⟩

end Sys2Proof.Machine
end

section
/-! A write of a general register keeps the frame of the registers named. -/

namespace Sys2Proof.Claims

open Sys2Proof.Machine

theorem OnlyRegs.refl {rs : List Reg} {s : State} : OnlyRegs rs s s := ⟨AllBut.refl, fun _ _ => rfl⟩

theorem OnlyRegs.setV {rs : List Reg} {s t : State} (h : OnlyRegs rs s t) (r : Reg) (b : Byte)
    (hr : r ∈ rs := by simp) : OnlyRegs rs s (t.setV r b) := by
  obtain ⟨parts, regs⟩ := h
  refine ⟨parts.setV r b, fun q hq => ?_⟩
  have other : ¬ r = q := fun e => hq (e ▸ hr)
  rw [State.getV_setV_of_ne other, regs q hq]

end Sys2Proof.Claims
end

section
/-! Register load, arithmetic, logic and shifts: the registers each instruction writes, in the order of its writes, and
the numbers it writes there (spec/41_alu.md R130 to R142). -/

namespace Sys2Proof.Machine

open Sys2Proof.Claims

theorem State.getV_setV_self (s : State) (r : Reg) (b : Byte) : (s.setV r b).getV r = b :=
  (s.getV_setV r r b).trans (if_pos rfl)

/-! ## The words of family 8 (R95) -/

theorem decode_wordXY_family8 (x y : Reg) (n : BitVec 4) :
    decode (wordXY 0x8 x y n) = decodeFamily8 (wordXY 0x8 x y n) := by
  rw [decode, famOf_wordXY]
  rfl

theorem encodes_family8 {i : Instr} {x y : Reg} (n : BitVec 4) (format : encode i = wordXY 0x8 x y n)
    (back : decodeFamily8 (wordXY 0x8 x y n) = i := by simp [decodeFamily8]) :
    Encodes i (0x8000 + n.toNat + 0x100 * x.val + 0x10 * y.val) :=
  encodes_wordXY 0x8 n format ((decode_wordXY_family8 x y n).trans back)

/-! ## What the writes leave (R131) -/

/-- One write, of a byte with the bits `g`. -/
theorem setV_bits_spec (s : State) (x : Reg) {value : Byte} {g : Nat → Bool} (hg : ∀ b, value.getLsbD b = g b) :
    ∃ t, Host.Outcome.next (φ := Fault) (ρ := Refusal) (s.setV x value) = .next t ∧ OnlyRegs [x] s t ∧
      ∀ b < 8, (t.getV x).getLsbD b = g b := by
  refine ⟨_, rfl, OnlyRegs.refl.setV x value, fun b _ => ?_⟩
  rw [State.getV_setV_self, hg]

/-- The flag first, the value second: for `x = 15` the value stays (D4). -/
theorem setFlag_setV_spec (s : State) (x : Reg) {flag value : Byte} {f v : Nat} (hv : value.toNat = v)
    (hf : flag.toNat = f) :
    ∃ t, Host.Outcome.next (φ := Fault) (ρ := Refusal) ((s.setFlag flag).setV x value) = .next t ∧
      OnlyRegs [x, 15] s t ∧ (t.getV x).toNat = v ∧ (x ≠ 15 → (t.getV 15).toNat = f) := by
  refine ⟨_, rfl, (OnlyRegs.refl.setV 15 flag).setV x value, ?_, fun hx => ?_⟩
  · rw [State.getV_setV_self, hv]
  · rw [State.getV_setV_of_ne hx, State.setFlag_eq, State.getV_setV_self, hf]

/-! ## The results and the flags, as numbers (R130) -/

theorem toNat_flagByte (b : Bool) : (flagByte b).toNat = flagNat b := by
  cases b <;> rfl

theorem flagNat_eq_toNat (b : Bool) : flagNat b = b.toNat := by
  cases b <;> rfl

theorem toNat_flagByte_getLsbD (a : Byte) (k : Nat) : (flagByte (a.getLsbD k)).toNat = a.toNat / 2 ^ k % 2 := by
  rw [toNat_flagByte, flagNat_eq_toNat, BitVec.getLsbD, Nat.toNat_testBit]

theorem toNat_lowBitFlag (a : Byte) : (lowBitFlag a).toNat = a.toNat % 2 := by
  rw [lowBitFlag, toNat_flagByte_getLsbD, Nat.pow_zero, Nat.div_one]

theorem toNat_highBitFlag (a : Byte) : (highBitFlag a).toNat = a.toNat / 128 := by
  rw [highBitFlag, toNat_flagByte_getLsbD]
  omega

theorem toNat_byte_sub (a b : Byte) : (a - b).toNat = (a.toNat + 256 - b.toNat) % 256 := by
  rw [BitVec.toNat_sub]
  omega

theorem toNat_byte_shiftRight_one (a : Byte) : (a >>> 1).toNat = a.toNat / 2 := by
  rw [BitVec.toNat_ushiftRight, Nat.shiftRight_one]

theorem toNat_byte_shiftLeft_one (a : Byte) : (a <<< 1).toNat = a.toNat * 2 % 256 := by
  rw [BitVec.toNat_shiftLeft, Nat.shiftLeft_eq]

/-! ## The instructions -/

/-- Settles O23: each load is one write of the named register. -/
theorem loadsWriteTheNamedRegister : Obligations.LoadsWriteTheNamedRegister := by
  refine fun x y kk => ⟨encodes_wordXK 0x6 rfl (by simp [decode]), encodes_family8 0x0 rfl, fun s => ⟨?_, ?_⟩⟩
  · exact ⟨_, rfl, s.getV_setV_self x kk, OnlyRegs.refl.setV x kk⟩
  · exact ⟨_, rfl, s.getV_setV_self x _, OnlyRegs.refl.setV x _⟩

/-- Settles O24: one write of the named register, with the sum of the bytes. -/
theorem addImmediateWrapsWithoutFlag : Obligations.AddImmediateWrapsWithoutFlag := by
  refine fun x kk => ⟨encodes_wordXK 0x7 rfl (by simp [decode]), fun s => ⟨_, rfl, ?_, OnlyRegs.refl.setV x _⟩⟩
  rw [State.getV_setV_self, BitVec.toNat_add]

/-- Settles O25: one write of the named register each, with the operation on bytes, which acts on each bit. -/
theorem logicActsBitByBit : Obligations.LogicActsBitByBit := by
  refine fun x y => ⟨encodes_family8 0x1 rfl, encodes_family8 0x2 rfl, encodes_family8 0x3 rfl, fun s => ?_⟩
  exact ⟨setV_bits_spec s x fun _ => BitVec.getLsbD_or, setV_bits_spec s x fun _ => BitVec.getLsbD_and,
    setV_bits_spec s x fun _ => BitVec.getLsbD_xor⟩

/-- Settles O26: the carry is the last write, so it is what VF holds for every `x`. -/
theorem addRegistersReportsCarry : Obligations.AddRegistersReportsCarry := by
  refine fun x y => ⟨encodes_family8 0x4 rfl, fun s =>
    ⟨_, rfl, (OnlyRegs.refl.setV x _).setV 15 _, ?_, fun hx => ?_⟩⟩
  · rw [State.setFlag_eq, State.getV_setV_self, carryFlag, toNat_flagByte]
  · rw [State.setFlag_eq, State.getV_setV_of_ne hx.symm, State.getV_setV_self, BitVec.toNat_add]

/-- Settles O27: both write the flag first and the difference second. -/
theorem subtractionsReportStrictlyGreater : Obligations.SubtractionsReportStrictlyGreater := by
  refine fun x y => ⟨encodes_family8 0x5 rfl, encodes_family8 0x7 rfl, fun s => ?_⟩
  exact ⟨setFlag_setV_spec s x (toNat_byte_sub _ _) (toNat_flagByte _),
    setFlag_setV_spec s x (toNat_byte_sub _ _) (toNat_flagByte _)⟩

/-- Settles O28: both write the lost bit first and the shifted value second. -/
theorem shiftsMoveOneBitToVF : Obligations.ShiftsMoveOneBitToVF := by
  refine fun x y => ⟨encodes_family8 0x6 rfl, encodes_family8 0xE rfl, fun s => ?_⟩
  exact ⟨setFlag_setV_spec s x (toNat_byte_shiftRight_one _) (toNat_lowBitFlag _),
    setFlag_setV_spec s x (toNat_byte_shiftLeft_one _) (toNat_highBitFlag _)⟩

end Sys2Proof.Machine
end

section
/-! The index register and memory transfer: the words of family F, the block a store writes and a load reads, and the
range check before either (spec/42_index_memory.md R150 to R155). -/

namespace Sys2Proof.Machine

open Sys2Proof.Claims

/-! ## The words of family F (R95) -/

theorem decode_wordX (x : Reg) (sub : Byte) : decode (wordX x sub) = decodeFamilyF (wordX x sub) := by
  rw [decode, famOf_wordX]
  rfl

theorem encodes_familyF {i : Instr} {x : Reg} (sub : Byte) (format : encode i = wordX x sub)
    (back : decodeFamilyF (wordX x sub) = i := by simp [decodeFamilyF]) :
    Encodes i (0xF000 + sub.toNat + 0x100 * x.val) :=
  encodes_of_decode (by rw [format, toNat_wordX]; omega) (format ▸ (decode_wordX x sub).trans back)

/-! ## Behind the range check (R155, R203) -/

/-- An access past the end of memory raises the data fault, and nothing of the instruction is done (D2). -/
theorem guardRange_past_end {n : Nat} {op : Word} {s t : State} (past : 4096 < s.i.toNat + n) :
    ∃ h, guardRange n op s t = .fault (.invalidAddressData h) ∧ AllBut [.phase, .fault] s h :=
  ⟨_, guardRange_of_gt past, allBut_enterFault s _ _⟩

/-- A checked store that fits writes its bytes verbatim from `I` upward and changes nothing else, `I` included (D6). -/
theorem guardRange_store_spec {n : Nat} {op : Word} {s : State} {bs : List Byte} (hm : s.mem.wf = true)
    (length : bs.length = n) (fits : s.i.toNat + n ≤ 4096) :
    ∃ t, guardRange n op s (s.setMem (s.mem.writeBytes s.ea bs)) = .next t ∧ AllBut [.mem] s t ∧
      (∀ k, ∀ h : k < bs.length, t.mem.read (s.i.toNat + k) = bs[k]) ∧
      ∀ a, a < s.i.toNat ∨ s.i.toNat + n ≤ a → t.mem.read a = s.mem.read a := by
  subst length
  exact ⟨_, guardRange_of_le fits, AllBut.refl.setMem _, fun _ hk => Memory.read_writeBytes_inside fits hm hk,
    fun _ => Memory.read_writeBytes_outside fits hm⟩

/-! ## The instructions -/

theorem length_bcdDigits (b : Byte) : (bcdDigits b).length = 3 := rfl

/-- Settles O29: one write of `I`, with a value that fits in 12 bits. -/
theorem loadIndexSetsAddress : Obligations.LoadIndexSetsAddress :=
  fun nnn => ⟨encodes_wordA 0xA rfl (by simp [decode]), fun _ => ⟨_, rfl, toNat_zextAddr nnn, AllBut.refl.setI _⟩⟩

/-- Settles O30: one write of `I`, with the sum of 16-bit words. -/
theorem addToIndexWrapsWithoutFlag : Obligations.AddToIndexWrapsWithoutFlag := by
  refine fun x => ⟨encodes_familyF 0x1E rfl, fun s => ⟨_, rfl, ?_, AllBut.refl.setI _⟩⟩
  rw [State.setI_i, BitVec.toNat_add, toNat_zextByte]

/-- Settles O31: a checked store of the three digits. -/
theorem storeDecimalDigits : Obligations.StoreDecimalDigits := by
  refine fun x => ⟨encodes_familyF 0x33 rfl, fun s hm fits => ?_, fun s past => guardRange_past_end (by omega)⟩
  obtain ⟨t, done, frame, stored, kept⟩ :=
    guardRange_store_spec (op := encode (.ldB x)) (bs := bcdDigits (s.getV x)) hm (length_bcdDigits _) (by omega)
  have digit (k : Nat) (hk : k < 3) : (t.mem.read (s.i.toNat + k)).toNat = decimalDigit (s.getV x) k :=
    (congrArg BitVec.toNat (stored k hk)).trans (toNat_getElem_bcdDigits _ k hk)
  exact ⟨t, done, frame, digit 0 (by decide), digit 1 (by decide), digit 2 (by decide), kept⟩

/-- Settles O32: a checked store of the registers up to `x`, in the order of their numbers. -/
theorem storeRegisterBlock : Obligations.StoreRegisterBlock := by
  refine fun x => ⟨encodes_familyF 0x55 rfl, fun s hm fits => ?_, fun s past => guardRange_past_end (by omega)⟩
  have length : ((regsUpTo x).map s.getV).length = x.val + 1 := by rw [List.length_map, length_regsUpTo]
  obtain ⟨t, done, frame, stored, kept⟩ :=
    guardRange_store_spec (op := encode (.ldMemVx x)) hm length (by omega)
  refine ⟨t, done, frame, fun k hk => ?_, kept⟩
  rw [stored k (by omega), getElem_map_regsUpTo, Fin.ofNat_val_eq_self]

/-- Settles O33: a checked load of the registers up to `x`, each from the byte at its number. -/
theorem loadRegisterBlock : Obligations.LoadRegisterBlock := by
  refine fun x => ⟨encodes_familyF 0x65 rfl, fun s fits => ?_, fun s past => guardRange_past_end (by omega)⟩
  refine ⟨s.loadRegs s.ea (regsUpTo x), guardRange_of_le fits, ?_, fun k hk => ?_, fun k hk => ?_⟩
  · rw [State.loadRegs_eq]
    exact AllBut.refl.setRegs _
  · exact (s.getV_loadRegs_upTo x k _).trans (if_pos hk)
  · exact (s.getV_loadRegs_upTo x k _).trans (if_neg (by omega))

end Sys2Proof.Machine
end

section
/-! The two instructions that write the display: the cells a draw toggles, the flag it leaves, and its range check
(spec/43_display.md R166, R167, R169). -/

namespace Sys2Proof.Machine

open Sys2Proof.Claims

/-- Settles O16: one write of the display, with the clear one. -/
theorem clsClearsEveryCell : Obligations.ClsClearsEveryCell := by
  refine ⟨encodes_of_decode rfl (by decide), fun s =>
    ⟨_, rfl, Display.lit_clear, fun c k => ?_, AllBut.refl.setDisp _⟩⟩
  rw [State.setDisp_disp, pixelAt, Display.lit_clear]
  rfl

/-! ## The cells of a sprite (R167, R169) -/

/-- A sprite is no higher than the display, so its rows land on distinct rows. -/
theorem toNat_rows_le (n : BitVec 4) : n.toNat ≤ 32 := by omega

section
variable {s : State} {vx vy : Byte} {n : Nat} {X : Fin 64} {Y : Fin 32}

theorem mem_spriteCells_iff_toggles : (X, Y) ∈ s.spriteCells vx vy n ↔ Toggles s vx vy n X Y :=
  State.mem_spriteCells

theorem lit_drawSprite_of_toggles (hn : n ≤ 32) (h : Toggles s vx vy n X Y) :
    (s.drawSprite vx vy n).disp.lit X Y = !s.disp.lit X Y := by
  rw [State.lit_drawSprite s vx vy hn, decide_eq_true (mem_spriteCells_iff_toggles.2 h), Bool.xor_true]

theorem lit_drawSprite_of_not_toggles (hn : n ≤ 32) (h : ¬ Toggles s vx vy n X Y) :
    (s.drawSprite vx vy n).disp.lit X Y = s.disp.lit X Y := by
  rw [State.lit_drawSprite s vx vy hn, decide_eq_false (mt mem_spriteCells_iff_toggles.1 h), Bool.xor_false]

/-- The cells that go from lit to unlit are the lit ones the sprite toggles. -/
theorem unlit_by_drawSprite_iff (hn : n ≤ 32) :
    s.disp.lit X Y = true ∧ (s.drawSprite vx vy n).disp.lit X Y = false ↔
      Toggles s vx vy n X Y ∧ s.disp.lit X Y = true := by
  rw [and_comm]
  refine and_congr_left fun lit => ?_
  by_cases h : Toggles s vx vy n X Y
  · simp [lit_drawSprite_of_toggles hn h, lit, h]
  · simp [lit_drawSprite_of_not_toggles hn h, lit, h]

end

/-! ## The collision flag (R167, R169) -/

theorem flagByte_eq_one_iff {b : Bool} : flagByte b = 1 ↔ b = true := by cases b <;> decide

theorem flagByte_of_ne_one {b : Bool} (h : flagByte b ≠ 1) : flagByte b = 0 := by
  rw [Ne, flagByte_eq_one_iff, Bool.not_eq_true] at h
  rw [h]
  rfl

section
variable (s : State) (vx vy : Byte) {n : Nat} (hn : n ≤ 32)
include hn

/-- A draw reports a collision exactly when a dot of the sprite fell on a lit cell. -/
theorem flag_drawSprite_eq_one_iff :
    (s.drawSprite vx vy n).getV 15 = 1 ↔ ∃ X Y, Toggles s vx vy n X Y ∧ s.disp.lit X Y = true := by
  rw [State.flag_drawSprite s vx vy hn, flagByte_eq_one_iff, List.any_eq_true, Prod.exists]
  simp only [mem_spriteCells_iff_toggles]

/-- A draw reports a collision exactly when a cell went from lit to unlit. -/
theorem flag_drawSprite_eq_one_iff_unlit : (s.drawSprite vx vy n).getV 15 = 1 ↔
    ∃ X Y, s.disp.lit X Y = true ∧ (s.drawSprite vx vy n).disp.lit X Y = false := by
  simp only [flag_drawSprite_eq_one_iff s vx vy hn, unlit_by_drawSprite_iff hn]

theorem flag_drawSprite_of_ne_one (h : (s.drawSprite vx vy n).getV 15 ≠ 1) : (s.drawSprite vx vy n).getV 15 = 0 := by
  rw [State.flag_drawSprite s vx vy hn] at h ⊢
  exact flagByte_of_ne_one h

end

/-! ## A sprite without rows, and a sprite drawn twice (R169) -/

/-- A sprite without rows writes 0 to VF and nothing else (D8). -/
theorem drawSprite_zero (s : State) (vx vy : Byte) : s.drawSprite vx vy 0 = s.setV 15 0 := rfl

/-- Drawing leaves `I` and the memory, so the sprite drawn again is the same one (R169). -/
theorem spriteCells_drawSprite (s : State) (vx vy : Byte) (n : Nat) :
    (s.drawSprite vx vy n).spriteCells vx vy n = s.spriteCells vx vy n := rfl

theorem lit_drawSprite_twice (s : State) (vx vy : Byte) {n : Nat} (hn : n ≤ 32) (X : Fin 64) (Y : Fin 32) :
    ((s.drawSprite vx vy n).drawSprite vx vy n).disp.lit X Y = s.disp.lit X Y := by
  rw [State.lit_drawSprite _ vx vy hn, State.lit_drawSprite s vx vy hn, spriteCells_drawSprite, Bool.xor_assoc,
    Bool.xor_self, Bool.xor_false]

/-! ## The instruction -/

theorem encodes_drw (x y : Reg) (n : BitVec 4) :
    Encodes (.drw x y n) (0xD000 + 0x100 * x.val + 0x10 * y.val + n.toNat) := by
  have value : (wordXY 0xD x y n).toNat = 0xD000 + 0x100 * x.val + 0x10 * y.val + n.toNat := by
    rw [toNat_wordXY, show (0xD : BitVec 4).toNat = 0xD from rfl]
    omega
  exact encodes_of_decode value (by simp [encode, decode])

/-- Settles O35: the draw that completes, cell by cell; its frame is that of the table of instructions. -/
theorem drawTogglesSpriteCells : Obligations.DrawTogglesSpriteCells := by
  refine fun x y n => ⟨encodes_drw x y n, fun s good => ?_⟩
  have done : exec (.drw x y n) s = .next (s.drawSprite (s.getV x) (s.getV y) n.toNat) :=
    execDrw_of_good (good.imp_right fun (inside : s.ea + n.toNat - 1 < 4096) => by omega)
  refine ⟨_, done, instructionsChangeOnlyTheirParts _ _ _ done, fun r hr => ?_, fun X Y =>
    ⟨lit_drawSprite_of_toggles (toNat_rows_le n), lit_drawSprite_of_not_toggles (toNat_rows_le n)⟩⟩
  exact exec_getV_unwritten done fun written => hr (List.mem_singleton.2 written)

/-- Settles O36: the flag is 1 exactly when a cell went from lit to unlit, and otherwise 0. -/
theorem drawReportsCollisions : Obligations.DrawReportsCollisions := by
  intro x y n s t h
  obtain ⟨-, rfl⟩ := execDrw_next h
  have hn := toNat_rows_le n
  have reports := flag_drawSprite_eq_one_iff_unlit s (s.getV x) (s.getV y) hn
  refine ⟨reports.2, fun kept => flag_drawSprite_of_ne_one s _ _ hn fun collided => ?_⟩
  obtain ⟨X, Y, lit, unlit⟩ := reports.1 collided
  exact absurd (kept X Y lit) (Bool.eq_false_iff.1 unlit)

/-- Settles O37: no rows draw nothing, and a range past the end is the data fault. -/
theorem drawChecksItsWholeRange : Obligations.DrawChecksItsWholeRange := by
  refine fun x y s => ⟨⟨_, execDrw_of_good (.inl rfl), ?_⟩, fun n rows past => ?_⟩
  · exact ⟨OnlyRegs.refl.setV 15 0, s.getV_setV_self 15 0⟩
  · have drawn : n ≠ 0 := by rintro rfl; exact absurd rows (by decide)
    have outside : 4096 < s.ea + n.toNat := by rw [State.ea]; omega
    exact ⟨_, execDrw_of_bad drawn outside, allBut_enterFault s _ _⟩

/-- Settles O38: the second draw toggles the same cells back, and its flag is that of a draw of the same sprite. -/
theorem drawTwiceRestoresTheDisplay : Obligations.DrawTwiceRestoresTheDisplay := by
  intro x y n s t h hx hy
  obtain ⟨good, rfl⟩ := execDrw_next h
  have hn := toNat_rows_le n
  refine ⟨_, execDrw_of_good good, ?_⟩
  rw [hx, hy]
  exact ⟨lit_drawSprite_twice s _ _ hn, flag_drawSprite_eq_one_iff _ _ _ hn⟩

end Sys2Proof.Machine
end

section
/-! The timer instructions, and that no other instruction reads or writes a timer (spec/44_timer_instructions.md R180 to
R182). -/

namespace Sys2Proof.Machine

open Sys2Proof.Claims

/-- A block load does not depend on the timers. -/
theorem State.loadRegs_setTimers (d b : Byte) : ∀ (rs : List Reg) (s : State) (a : Nat),
    ((s.setDT d).setST b).loadRegs a rs = ((s.loadRegs a rs).setDT d).setST b
  | [], _, _ => rfl
  | r :: rs, s, a => State.loadRegs_setTimers d b rs (s.setV r (s.mem.read a)) (a + 1)

section
variable {i : Instr} {s t : State} (h : exec i s = .next t)
include h

/-- An instruction that completes keeps `DT`, but for `Fx15` (R34, R181). -/
theorem exec_dt (other : ∀ x, i ≠ .ldDTVx x) : t.dt = s.dt := by
  refine instructionsChangeOnlyTheirParts i s t h .dt ?_
  cases i
  case ldDTVx x => exact absurd rfl (other x)
  all_goals simp [writesPart]

/-- An instruction other than the timer instructions does the same with any values in the timers, and leaves them
there. -/
theorem exec_setTimers (other : ∀ x, i ≠ .ldVxDT x ∧ i ≠ .ldDTVx x ∧ i ≠ .ldSTVx x) (d b : Byte) :
    exec i ((s.setDT d).setST b) = .next ((t.setDT d).setST b) := by
  cases i
  case ldVxDT x => exact absurd rfl (other x).1
  case ldDTVx x => exact absurd rfl (other x).2.1
  case ldSTVx x => exact absurd rfl (other x).2.2
  case ret => obtain ⟨k, top, rfl⟩ := execRet_next h; exact execRet_of_some top
  case call => obtain ⟨k, free, rfl⟩ := execCall_next h; exact execCall_of_some free
  case seImm | sneImm | seReg | sneReg => cases (skipIf_eq _ _).symm.trans h; exact skipIf_eq _ _
  case drw => obtain ⟨good, rfl⟩ := execDrw_next h; exact execDrw_of_good good
  case ldB | ldMemVx => obtain ⟨inside, rfl⟩ := guardRange_next h; exact guardRange_of_le inside
  case ldVxMem x =>
    obtain ⟨inside, rfl⟩ := guardRange_next h
    rw [← State.loadRegs_setTimers]
    exact guardRange_of_le inside
  all_goals cases h; rfl

/-- No instruction reads `ST`: `Fx18` overwrites it, and every other instruction leaves the value given (R182). -/
theorem exec_setST (b : Byte) : ∃ u, exec i (s.setST b) = .next u ∧ AllBut [.st] t u := by
  by_cases timer : ∃ x, i = .ldVxDT x ∨ i = .ldDTVx x ∨ i = .ldSTVx x
  · obtain ⟨x, rfl | rfl | rfl⟩ := timer
    · cases h; exact ⟨_, rfl, AllBut.refl.setST b⟩
    · cases h; exact ⟨_, rfl, AllBut.refl.setST b⟩
    · cases h; exact ⟨_, rfl, AllBut.refl⟩
  · have other : ∀ x, i ≠ .ldVxDT x ∧ i ≠ .ldDTVx x ∧ i ≠ .ldSTVx x := by simpa [not_or] using timer
    have kept : t.dt = s.dt := exec_dt h fun x => (other x).2.1
    refine ⟨_, exec_setTimers h other s.dt b, ?_⟩
    rw [← kept]
    exact AllBut.refl.setST b

end

/-- Settles O40: one write each for the three moves, and the state the instruction leaves with `ST` replaced. -/
theorem timerInstructionsMoveOneByte : Obligations.TimerInstructionsMoveOneByte := by
  refine ⟨fun x => ⟨encodes_familyF 0x07 rfl, encodes_familyF 0x15 rfl, encodes_familyF 0x18 rfl, fun s => ?_⟩,
    fun i s t b h => exec_setST h b⟩
  exact ⟨⟨_, rfl, s.getV_setV_self x s.dt, OnlyRegs.refl.setV x s.dt⟩, ⟨_, rfl, rfl, AllBut.refl.setDT _⟩,
    ⟨_, rfl, rfl, AllBut.refl.setST _⟩⟩

end Sys2Proof.Machine
end

section
/-! The step of an unimplemented word: nothing but the advance of `PC`, and the report
(spec/45_unimplemented.md R190). -/

namespace Sys2Proof.Machine

/-- The execute part leaves the state it is given, whose `PC` is already advanced. -/
theorem exec_unimpl (op : Word) (s : State) : exec (.unimpl op) s = .next s := rfl

/-- Settles O44: the step executes what the decoder makes of the word, and the event is that of the word. -/
theorem unimplementedWordIsReportedNoOp : Obligations.UnimplementedWordIsReportedNoOp := by
  intro op unclaimed
  have decoded : decode op = .unimpl op := (decoderAgreesWithOpcodeTable op).2.mp unclaimed
  refine ⟨decoded, exec_unimpl op, fun s running fetched => ⟨?_, ?_⟩⟩
  · obtain ⟨inside, word⟩ := fetch_eq_some.1 fetched
    obtain ⟨-, executed, -⟩ := stepRunsTheDecodedInstruction s op running inside (eq_readWord_iff.2 word)
    rw [executed, decoded, exec_unimpl]
  · have alive : s.phase ≠ .halted := by rw [running]; decide
    exact stepEvent_eq_some.2 ⟨alive, op, fetched, eventOf_decode.2 ⟨unclaimed, rfl⟩⟩

end Sys2Proof.Machine
end

section
/-! The two timers: what a tick does to them, that it commutes with every instruction that is not a timer instruction,
and how often the paced schedule holds one (spec/60_exceptions.md R213, R215, R217, R218). -/

namespace Sys2Proof.Machine

open Sys2Proof.Claims

/-- Settles O41: outside `HALTED` a tick is one write to each timer, in `HALTED` it is none. -/
theorem tickCountsTimersDown : Obligations.TickCountsTimersDown := by
  intro s
  by_cases halted : s.phase = .halted
  · rw [tick_halted halted]
    exact ⟨AllBut.refl, fun alive => absurd halted alive, fun _ => rfl⟩
  · rw [tick_of_alive halted]
    exact ⟨(AllBut.refl.setDT _).setST _, fun _ => ⟨toNat_countDown s.dt, toNat_countDown s.st⟩,
      fun h => absurd h halted⟩

/-- Settles O42: the instruction does the same with the counted-down timers, and leaves the timers of the old state to
be counted down after it. -/
theorem tickCommutesWithOtherInstructions : Obligations.TickCommutesWithOtherInstructions := by
  intro i s t other running h
  have alive : s.phase ≠ .halted := by rw [running]; decide
  have alive' : t.phase ≠ .halted := by rwa [(exec_effect h).phase_eq]
  -- the timers written with their own values are the state before, so they are what the instruction leaves
  have kept : t = (t.setDT s.dt).setST s.st := Host.Outcome.next.inj (h.symm.trans (exec_setTimers h other s.dt s.st))
  have dt : t.dt = s.dt := (congrArg State.dt kept).trans rfl
  have st : t.st = s.st := (congrArg State.st kept).trans rfl
  rw [tick_of_alive alive, tick_of_alive alive', dt, st]
  exact exec_setTimers h other _ _

section
variable (c : Config)

theorem count_tick_pacedSchedule : ∀ m, (pacedSchedule c m).count .tick = m
  | 0 => rfl
  | m + 1 => by simp [pacedSchedule, List.count_replicate, count_tick_pacedSchedule m]

theorem count_step_pacedSchedule : ∀ m, (pacedSchedule c m).count .step = m * (c.clockIps / 60)
  | 0 => by simp [pacedSchedule]
  | m + 1 => by
    rw [pacedSchedule, List.count_append, List.count_replicate_self, List.count_cons_of_ne (by decide),
      count_step_pacedSchedule m, Nat.succ_mul, Nat.add_comm]

theorem mem_pacedSchedule {tr : Transaction} : ∀ m, tr ∈ pacedSchedule c m → tr = .step ∨ tr = .tick
  | m + 1, h => by
    rw [pacedSchedule, List.mem_append, List.mem_cons] at h
    obtain steps | tick | later := h
    · exact .inl (List.eq_of_mem_replicate steps)
    · exact .inr tick
    · exact mem_pacedSchedule m later

end

/-- Settles O43: the counts by induction on the periods; the quotient is exact at a multiple of 60. -/
theorem pacedScheduleTicksOncePerPeriod : Obligations.PacedScheduleTicksOncePerPeriod := by
  intro c m
  have steps := count_step_pacedSchedule c m
  refine ⟨count_tick_pacedSchedule c m, fun k rate => ?_, steps, fun _ => mem_pacedSchedule c m⟩
  rw [steps, rate, Nat.mul_div_cancel_left k (by decide)]

end Sys2Proof.Machine
end

section
/-! The instructions that fault, and under which condition (spec/60_exceptions.md R201, R203 to R205). -/

namespace Sys2Proof.Machine

open Sys2Proof.Claims

/-- The outcome is a fault of the cause, where one is listed, and a next state where none is (R201). -/
def EndsAsListed (listed : Option FaultCause) (o : Host.Outcome State Fault Refusal) : Prop :=
  (∀ c, listed = some c → ∃ f, o = .fault f ∧ f.cause = c) ∧ (listed = none → ∃ t, o = .next t)

section
variable {o : Host.Outcome State Fault Refusal} {bad : Prop} [Decidable bad]

theorem EndsAsListed.of_next {t : State} (h : o = .next t) : EndsAsListed none o := ⟨nofun, fun _ => ⟨t, h⟩⟩

/-- The one cause of an instruction, listed under a condition that decides between fault and completion. -/
theorem EndsAsListed.of_condition {cause : FaultCause} (raises : bad → ∃ f, o = .fault f ∧ f.cause = cause)
    (completes : ¬ bad → ∃ t, o = .next t) : EndsAsListed (if bad then some cause else none) o := by
  by_cases h : bad
  · rw [if_pos h]
    exact ⟨fun c hc => Option.some.inj hc ▸ raises h, nofun⟩
  · rw [if_neg h]
    exact ⟨nofun, fun _ => completes h⟩

/-- The range check of `n` bytes raises the data fault exactly where they do not all lie in memory (R203). -/
theorem EndsAsListed.of_guardRange {n : Nat} {op : Word} {s t : State} (past : bad ↔ 4096 < s.i.toNat + n) :
    EndsAsListed (if bad then some .invalidAddressData else none) (guardRange n op s t) :=
  .of_condition (fun h => ⟨_, guardRange_of_gt (past.1 h), rfl⟩)
    fun h => ⟨_, guardRange_of_le (Nat.le_of_not_lt (mt past.2 h))⟩

end

/-- RET and CALL end by the stack, the accesses through `I` by the range check, and every other instruction
completes (R66, R204, R205). -/
theorem exec_endsAsListed (i : Instr) (s : State) : EndsAsListed (faultOf i s) (exec i s) := by
  cases i
  case ret =>
    refine .of_condition (fun empty => ?_) fun used => ?_
    · exact ⟨_, execRet_of_none (s.spValue_eq_neg_one.1 empty), rfl⟩
    · obtain ⟨k, top⟩ := Option.ne_none_iff_exists'.1 (mt s.spValue_eq_neg_one.2 used)
      exact ⟨_, execRet_of_some top⟩
  case call nnn =>
    have full : s.spValue = 15 ↔ spPush s.sp = none := (s.spValue_eq_coe 15).trans (spPush_eq_none _).symm
    refine .of_condition (fun h => ?_) fun h => ?_
    · exact ⟨_, execCall_of_none (full.1 h), rfl⟩
    · obtain ⟨k, free⟩ := Option.ne_none_iff_exists'.1 (mt full.2 h)
      exact ⟨_, execCall_of_some free⟩
  case drw x y n =>
    have noRows : n = 0 ↔ n.toNat = 0 := BitVec.toNat_inj.symm
    refine .of_condition (fun past => ?_) fun good => ?_
    · exact ⟨_, execDrw_of_bad (by rw [ne_eq, noRows]; omega) (by rw [State.ea]; omega), rfl⟩
    · exact ⟨_, execDrw_of_good (by rw [noRows, State.ea]; omega)⟩
  case ldB x => exact .of_guardRange (by omega)
  case ldMemVx x | ldVxMem x => exact .of_guardRange (by omega)
  all_goals exact .of_next rfl

/-- Settles O46: the statement is `EndsAsListed`, written out. -/
theorem faultsAriseExactlyAsListed : Obligations.FaultsAriseExactlyAsListed := exec_endsAsListed

end Sys2Proof.Machine
end

section
/-! A word from its fields, and that the encoder gives back every decoded word (spec/30_encoding.md R91 to R96). -/

namespace Sys2Proof

section
variable {op : Word} {f : BitVec 4}

theorem wordA_of_fields (fam : (famOf op).toNat = f.toNat) : wordA f (nnnOf op) = op := by
  apply BitVec.eq_of_toNat_eq
  rw [toNat_wordA, ← fam, toNat_famOf, toNat_nnnOf]
  omega

theorem wordXK_of_fields {kk : Byte} (fam : (famOf op).toNat = f.toNat) (low : (kkOf op).toNat = kk.toNat) :
    wordXK f (xOf op) kk = op := by
  apply BitVec.eq_of_toNat_eq
  rw [toNat_wordXK, ← fam, ← low, toNat_famOf, val_xOf, toNat_kkOf]
  omega

theorem wordXY_of_fields {n : BitVec 4} (fam : (famOf op).toNat = f.toNat) (low : (nOf op).toNat = n.toNat) :
    wordXY f (xOf op) (yOf op) n = op := by
  apply BitVec.eq_of_toNat_eq
  rw [toNat_wordXY, ← fam, ← low, toNat_famOf, val_xOf, val_yOf, toNat_nOf]
  omega

theorem encode_decodeFamily0 : encode (decodeFamily0 op) = op := by
  unfold decodeFamily0
  split
  · exact Eq.symm ‹_›
  · split
    · exact Eq.symm ‹_›
    · rfl

theorem encode_decodeFamily8 (fam : (famOf op).toNat = 0x8) : encode (decodeFamily8 op) = op := by
  unfold decodeFamily8
  split
  case h_10 => rfl
  all_goals exact wordXY_of_fields fam ‹_›

theorem encode_decodeFamilyF (fam : (famOf op).toNat = 0xF) : encode (decodeFamilyF op) = op := by
  unfold decodeFamilyF
  split
  case h_8 => rfl
  all_goals exact wordXK_of_fields fam ‹_›

/-- Families 5 and 9: a word with the low nibble 0 is its register form, every other word is kept whole. -/
theorem encode_ite_nOf {i : Instr} (format : encode i = wordXY f (xOf op) (yOf op) 0#4)
    (fam : (famOf op).toNat = f.toNat) :
    encode (if nOf op = 0 then i else .unimpl op) = op := by
  split
  · rw [format]
    exact wordXY_of_fields fam (congrArg _ ‹_›)
  · rfl

end

/-- No bit of a word is lost by decoding it (R95, R97). -/
theorem encode_decode (op : Word) : encode (decode op) = op := by
  have lt := (famOf op).isLt
  unfold decode
  generalize fam : (famOf op).toNat = f at lt
  match f, lt with
  | 0x0, _ => exact encode_decodeFamily0
  | 0x1, _ | 0x2, _ | 0xA, _ | 0xB, _ => exact wordA_of_fields fam
  | 0x3, _ | 0x4, _ | 0x6, _ | 0x7, _ => exact wordXK_of_fields fam rfl
  | 0x5, _ | 0x9, _ => exact encode_ite_nOf rfl fam
  | 0x8, _ => exact encode_decodeFamily8 fam
  | 0xC, _ | 0xE, _ => rfl
  | 0xD, _ => exact wordXY_of_fields fam rfl
  | 0xF, _ => exact encode_decodeFamilyF fam
  | _ + 16, h => omega

end Sys2Proof
end

section
/-! The frame rules of the two elements a fault entry writes. -/

namespace Sys2Proof.Claims

open Sys2Proof.Machine

section
variable {ps : List Part} {s t : State} (h : AllBut ps s t)
include h

theorem AllBut.setPhase (a : Phase) (hp : .phase ∈ ps := by simp) : AllBut ps s (t.setPhase a) := by
  intro p hn
  cases p with
  | phase => exact absurd hp hn
  | _ => exact h _ hn

theorem AllBut.setFault (a : FaultRecord) (hp : .fault ∈ ps := by simp) : AllBut ps s (t.setFault a) := by
  intro p hn
  cases p with
  | fault => exact absurd hp hn
  | _ => exact h _ hn

end

end Sys2Proof.Claims
end

section
/-! What the halted state of a faulting step holds (spec/60_exceptions.md R201, R208, R209). -/

namespace Sys2Proof.Machine

open Sys2Proof.Claims

/-- Everything a faulting step can be: the fetch fault at the old `PC`, or a fault of the execute part, entered with the
advanced `PC` and the fetched word. -/
theorem step_fault_cases {s : State} {f : Fault} (h : step s = .fault f) :
    f = .invalidAddressFetch (s.beginRun.enterFault .invalidAddressFetch 0) ∨
    ∃ c, (c = .invalidAddressData ∨ c = .stackOverflow ∨ c = .stackUnderflow) ∧
      f = Fault.of c (s.beginRun.advance.enterFault c (s.mem.readWord s.pc.toNat)) := by
  obtain ⟨-, hstep⟩ | ⟨-, -, hstep⟩ | ⟨-, -, hstep⟩ := step_cases s <;> rw [hstep] at h
  · cases h
  · cases h; exact .inl rfl
  · obtain ⟨c, notLoad, notFetch, rfl⟩ := exec_fault h
    rw [encode_decode]
    refine .inr ⟨c, ?_, rfl⟩
    cases c with
    | outOfBounds => exact absurd rfl notLoad
    | invalidAddressFetch => exact absurd rfl notFetch
    | _ => simp

/-- The codes of the causes the execute part raises (R201). -/
theorem FaultCause.code_of_exec {c : FaultCause}
    (hc : c = .invalidAddressData ∨ c = .stackOverflow ∨ c = .stackUnderflow) :
    c = .invalidAddressData ∧ c.code = 3 ∨ c = .stackOverflow ∧ c.code = 4 ∨ c = .stackUnderflow ∧ c.code = 5 := by
  obtain rfl | rfl | rfl := hc <;> decide

/-- Settles O47: the fetch fault and the faults of the execute part, each one fault entry after the updates of the
step. -/
theorem stepFaultsArePrecise : Obligations.StepFaultsArePrecise := by
  intro s f h
  obtain rfl | ⟨c, hc, rfl⟩ := step_fault_cases h
  · exact ⟨((AllBut.refl.setPhase _).setFault _).setPhase _, rfl, fun _ => ⟨rfl, rfl⟩, fun other => absurd rfl other⟩
  · rw [Fault.halted_of, Fault.cause_of]
    refine ⟨(((AllBut.refl.setPhase _).setPC _).setFault _).setPhase _, rfl, fun fetch => ?_, fun _ => ?_⟩
    · subst fetch; simp at hc
    · exact ⟨rfl, toNat_wordOfBytes _ _, FaultCause.code_of_exec hc⟩

/-- Settles O4: a faulting step has halted, and what it leaves is inside the invariant. -/
theorem faultHaltsInsideInvariant : Obligations.FaultHaltsInsideInvariant := by
  intro s f hs h
  obtain ⟨-, halted, -⟩ := stepFaultsArePrecise s f h
  exact ⟨halted, step_fault_keeps_inv hs h⟩

end Sys2Proof.Machine
end

section
/-! A spin, the normal end of a run (spec/70_reset_and_hazards.md R246): its step gives back the state and emits
nothing, and a tick writes the two timers only. -/

namespace Sys2Proof.Machine

open Sys2Proof.Claims

/-- An address below 4096 is its own low 12 bits, so JP can name it. -/
theorem zextAddr_extractLsb' {a : Word} (h : a.toNat < 4096) : zextAddr (a.extractLsb' 0 12) = a := by
  apply BitVec.eq_of_toNat_eq
  rw [toNat_zextAddr, BitVec.extractLsb'_toNat, Nat.shiftRight_zero]
  exact Nat.mod_eq_of_lt h

theorem State.ended.alive {s : State} (h : s.ended) : s.alive := by
  obtain ⟨running, -⟩ := h
  rw [State.alive, running]
  decide

/-- The instruction a spin fetches is the jump to its own address. -/
theorem State.ended.fetch {s : State} (h : s.ended) :
    s.fetch = some (wordA 0x1#4 (s.pc.extractLsb' 0 12)) := by
  obtain ⟨-, inside, word⟩ := h
  rw [State.fetch_of_le (by omega), word]

theorem decode_wordA_jp (a : BitVec 12) : decode (wordA 0x1#4 a) = .jp a := by simp [decode]

/-- The jump undoes the advance. -/
theorem State.ended.step_eq {s : State} (h : s.ended) : step s = .next s := by
  rw [step_exec h.alive h.fetch, decode_wordA_jp]
  obtain ⟨running, inside, -⟩ := h
  calc exec (.jp (s.pc.extractLsb' 0 12)) s.beginRun.advance
      = .next ((s.setPhase .run).setPC (zextAddr (s.pc.extractLsb' 0 12))) := rfl
    _ = .next s := by rw [zextAddr_extractLsb' (by omega), ← running]; rfl

theorem State.ended.stepEvent_eq {s : State} (h : s.ended) : stepEvent s = none := by
  rw [stepEvent_of_alive h.alive, h.fetch, Option.bind_some, decode_wordA_jp]
  rfl

theorem State.ended.setTimers {s : State} (h : s.ended) (d b : Byte) : ((s.setDT d).setST b).ended := h

/-- By induction on the schedule, the end of the run carried along: a step leaves the state, a tick its timers. -/
theorem State.ended.runSchedule_eq : ∀ {ts : List Transaction} {s : State}, s.ended →
    (∀ t ∈ ts, t = .step ∨ t = .tick) →
    (∃ d b, runSchedule s ts = (s.setDT d).setST b) ∧ eventsOf s ts = []
  | [], s, _, _ => ⟨⟨s.dt, s.st, rfl⟩, rfl⟩
  | t :: ts, s, h, hts => by
    obtain ⟨ht, later⟩ := List.forall_mem_cons.1 hts
    rw [runSchedule, eventsOf]
    obtain rfl | rfl := ht
    · have unchanged : s.after .step = s := by rw [State.after, h.step_eq, stateAfter]
      rw [unchanged, State.emits, h.stepEvent_eq]
      exact h.runSchedule_eq later
    · have counted : s.after .tick = (s.setDT (countDown s.dt)).setST (countDown s.st) := tick_of_alive h.alive
      rw [counted]
      exact (h.setTimers _ _).runSchedule_eq later

/-- Settles O50: what a schedule leaves of a spin is the spin with other timers. -/
theorem spinFreezesAllButTimers : Obligations.SpinFreezesAllButTimers := by
  intro s ts ended hts
  obtain ⟨⟨d, b, left⟩, silent⟩ := ended.runSchedule_eq hts
  rw [left]
  exact ⟨(AllBut.refl.setDT d).setST b, silent, ended.step_eq⟩

end Sys2Proof.Machine
end

section
/-! The launch state: the two loads of the boot sequence fit and write disjoint ranges of the zeroed memory
(spec/70_reset_and_hazards.md R242, R244). -/

namespace Sys2Proof.Machine

open Sys2Proof.Claims

/-- A read after bytes were written: the byte of its offset inside their range, the old byte outside. -/
theorem Memory.read_writeBytes_ite {bs : List Byte} {m : Memory} {a c : Nat} (ha : a + bs.length ≤ memSize)
    (hm : m.wf = true) :
    (m.writeBytes a bs).read c = if a ≤ c ∧ c < a + bs.length then bs.getD (c - a) 0 else m.read c := by
  split
  · obtain ⟨k, rfl⟩ := Nat.exists_eq_add_of_le (show a ≤ c by omega)
    have hk : k < bs.length := by omega
    rw [Memory.read_writeBytes_inside ha hm hk, Nat.add_sub_cancel_left, List.getD_eq_getElem _ _ hk]
  · exact Memory.read_writeBytes_outside ha hm (by omega)

theorem after_load_of_fits {s : State} {bs : List Byte} {off lim : Nat} (hs : s.phase = .load)
    (fits : off + bs.length ≤ min lim 4096) : s.after (.load bs off lim) = s.setMem (s.mem.writeBytes off bs) := by
  rw [State.after, (load_eq_next hs).2 ⟨fits, rfl⟩, stateAfter]

/-- The launch state is reset with the two writes of the boot sequence in memory. -/
theorem launchState_eq {c : Config} {rom : List Byte} (font : c.fontBase + c.fontData.length ≤ programBase)
    (program : programBase + rom.length ≤ memSize) :
    launchState c rom = State.reset.setMem
      ((State.reset.mem.writeBytes c.fontBase c.fontData).writeBytes programBase rom) := by
  have afterFont := after_load_of_fits (s := State.reset) (lim := programBase) rfl font
  simp only [launchState, bootSequence, runSchedule]
  rw [show State.reset.after .reset = State.reset from rfl, afterFont]
  exact after_load_of_fits (lim := memSize) rfl program

/-- Settles O54: a byte is read through the write of the program, then through that of the font; the ranges are
disjoint. -/
theorem launchStateHoldsFontAndProgram : Obligations.LaunchStateHoldsFontAndProgram := by
  intro c rom hrom font
  have program : programBase + rom.length ≤ memSize := by rw [programBase, memSize]; omega
  have fontInside : c.fontBase + c.fontData.length ≤ memSize := font.trans (by decide)
  rw [launchState_eq font program]
  refine ⟨AllBut.refl.setMem _, fun a => ?_⟩
  rw [State.setMem_mem, Memory.read_writeBytes_ite program (Memory.wf_writeBytes fontInside Memory.reset_wf),
    Memory.read_writeBytes_ite fontInside Memory.reset_wf, programBase]
  by_cases inFont : c.fontBase ≤ a ∧ a < c.fontBase + c.fontData.length
  · have belowProgram : ¬ (0x200 ≤ a ∧ a < 0x200 + rom.length) := by omega
    rw [if_neg belowProgram, if_pos inFont, if_pos inFont]
  · rw [if_neg inFont, if_neg inFont]
    rfl

end Sys2Proof.Machine
end

section
/-! The encoder and the decoder undo each other on well-formed instructions (spec/30_encoding.md R94 to R97). -/

namespace Sys2Proof.Machine

/-- The one term that can be ill formed is a word kept whole: it is well formed when the decoder keeps that word. -/
theorem wf_iff (i : Instr) : i.wf = true ↔ ∀ w, i = .unimpl w → decode w = .unimpl w := by
  cases i
  case unimpl op =>
    obtain ⟨-, kept⟩ := decoderAgreesWithOpcodeTable op
    simp [Instr.wf, isImplemented, OpcodeRow.claims, ← kept]
  all_goals exact ⟨fun _ _ => nofun, fun _ => rfl⟩

/-- Settles O7, by the decoder's branches: each field of a word built in a format is what the word was built from, and
where a sub-decoder takes over it reads the low nibble or the low byte the encoder wrote. -/
theorem decodeAfterEncodeIsIdentity : Obligations.DecodeAfterEncodeIsIdentity := by
  intro i wf
  cases i
  case cls | ret => decide
  case jp | call | ldI | jpV0 | seImm | sneImm | ldImm | addImm | seReg | sneReg | drw => simp [encode, decode]
  case ldReg x y | orReg x y | andReg x y | xorReg x y | addReg x y | subReg x y | shr x y | subnReg x y | shl x y =>
    exact (decode_wordXY_family8 x y _).trans (by simp [decodeFamily8])
  case ldVxDT x | ldDTVx x | ldSTVx x | addI x | ldB x | ldMemVx x | ldVxMem x =>
    exact (decode_wordX x _).trans (by simp [decodeFamilyF])
  case unimpl op => exact (wf_iff _).1 wf op rfl

/-- Settles O8: a word the decoder keeps whole is its own encoding, so it is the word decoded. -/
theorem encodeAfterDecodeIsIdentity : Obligations.EncodeAfterDecodeIsIdentity := by
  refine fun op => ⟨(wf_iff _).2 fun w kept => ?_, encode_decode op⟩
  have same : w = op := (congrArg encode kept).symm.trans (encode_decode op)
  subst same
  exact kept

end Sys2Proof.Machine
end

section
/-! The state after reset (spec/10_state.md R43). -/

namespace Sys2Proof.Machine

/-- Settles O1, row by row: memory lists no cell, registers and stack are replicated zeros, the display is the clear
one. -/
theorem resetLeavesResetTable : Obligations.ResetLeavesResetTable :=
  ⟨fun _ => rfl, fun r => Vector.getElem_replicate r.isLt, rfl, rfl, rfl, fun k => Vector.getElem_replicate k.isLt, rfl,
    rfl, Display.lit_clear, rfl, rfl, fun _ => rfl⟩

/-- Settles O2: the base case of the invariant's induction. -/
theorem resetStateIsInsideInvariant : Obligations.ResetStateIsInsideInvariant := State.Inv.at_reset

end Sys2Proof.Machine
end
